-- ==== Sys2Proof/Word.lean ====
section
/-! DEFINITION. The word types of the block (10_state.md R21-R35) and the one widening it uses. -/

namespace Sys2Proof

/-- A `BUF` entry, a command byte, a response byte, a reload value (R21, R32, R33, R35). -/
abbrev Byte := BitVec 8

/-- The width of `LAST`, `REMAIN` and `FLAST` (R23, R28, R29). -/
abbrev Word10 := BitVec 10

/-- The logic level of the output pin: `true` is high (1), `false` is low (0) (R16, R31). -/
abbrev Level := Bool

/-- `zext_10(v)` of R11 and R95. -/
def zext10 (b : Byte) : Word10 := b.setWidth 10

end Sys2Proof
end

