-- ==== Sys2Proof/Syntax.lean ====
section
/-! DEFINITION. The operations of the block: the 12 host commands (30_encoding.md R93) and the 7 cases of the tick
operation (R100), one constructor of `Instr` per row of the opcode table; and the names the decoder uses. -/

namespace Sys2Proof

/-- The 12 opcodes, "and the only opcodes this hardware recognises" (R93). -/
inductive Opcode where
  | reset
  | versionRequest
  | noOperation
  | setTxStartCode
  | turnTxOn
  | turnTxOff
  | setDmxChannelValueLow
  | setDmxChannelValueHigh
  | turnOnBlackout
  | turnOffBlackout
  | setLastTxCodeLow
  | setLastTxCodeHigh
  deriving DecidableEq, Repr

/-- The three command formats (R91). -/
inductive Format where
  | f0
  | f1
  | f2
  deriving DecidableEq, Repr

/-- `PHASE`, the source's TransmitState (R25). `brk` is Break. -/
inductive Phase where
  | brk
  | markAfterBreak
  | startBit
  | dataBits
  | stopBits
  | idle
  deriving DecidableEq, Repr

/-- One constructor per row of the opcode table. The commands carry their parameter bytes (R92); a tick case carries
none, because `PHASE` and `BITPOS` select it (R100). -/
inductive Instr where
  | reset
  | versionRequest
  | noOperation
  | setTxStartCode (p : Byte)
  | turnTxOn
  | turnTxOff
  | setDmxChannelValueLow (idx val : Byte)
  | setDmxChannelValueHigh (idx val : Byte)
  | turnOnBlackout
  | turnOffBlackout
  | setLastTxCodeLow (p : Byte)
  | setLastTxCodeHigh (p : Byte)
  | tickBreak
  | tickMarkAfterBreak
  | tickStartBit
  | tickDataBit
  | tickLastDataBit
  | tickStopBits
  | tickIdle
  deriving DecidableEq, Repr

/-- `DEC`, the decoder's state (R33): `op` has been recognised and `ps` are the parameter bytes received so far. -/
inductive Dec where
  | awaitOpcode
  | awaitParams (op : Opcode) (ps : List Byte)
  deriving DecidableEq, Repr

/-- What selects a tick case: the 3-bit code of `PHASE` (R25) and `BITPOS` (R100). -/
structure TickSelector where
  code   : BitVec 3
  bitpos : BitVec 3
  deriving DecidableEq, Repr

/-- What makes the block act: command bytes on `rx`, or a tick at the selector's `PHASE` and `BITPOS` (R90). -/
inductive Stimulus where
  | bytes (bs : List Byte)
  | tick (sel : TickSelector)
  deriving DecidableEq, Repr

/-- Why a decoding is refused, by name. -/
inductive DecodeError where
  /-- There is no byte to take as an opcode. -/
  | noByte
  /-- The byte is none of the 12 opcodes; on `rx` it is discarded (R96). -/
  | unrecognised (b : Byte)
  /-- The opcode's parameters have not all arrived; on `rx` the decoder waits (R103). -/
  | incomplete (op : Opcode) (ps : List Byte)
  /-- Bytes follow the command where exactly one command was asked for. -/
  | trailing (bs : List Byte)
  /-- `PHASE` codes 6 and 7 (R132). -/
  | noSuchPhase (code : BitVec 3)
  deriving DecidableEq, Repr

/-- What the decoder makes of a finished stretch of the stream: a complete command or a discarded byte (R103). -/
inductive Item where
  | command (i : Instr)
  | discarded (b : Byte)
  deriving DecidableEq, Repr

/-- The pseudo-instructions of R102, "shorthand only". -/
inductive Pseudo where
  | setChannel (c : Nat) (v : Byte)
  | setLast (n : Nat)
  | guardedReset
  deriving DecidableEq, Repr

end Sys2Proof
end

