-- ==== Sys2Proof/Decode.lean ====
section
/-! DEFINITION. The encoding tables of 30_encoding.md, the decoder (total, refusing by name) and the encoder written from
the same tables; the byte-by-byte decoder of R170 and the decoding of whole streams (R103); the tick selector (R100);
and the numbering of the opcode table's words. -/

namespace Sys2Proof

/-! ### The tables -/

/-- The opcode byte (R93). -/
def Opcode.code : Opcode → Byte
  | .reset => 0x22
  | .versionRequest => 0x24
  | .noOperation => 0x26
  | .setTxStartCode => 0x42
  | .turnTxOn => 0x44
  | .turnTxOff => 0x46
  | .setDmxChannelValueLow => 0x48
  | .setDmxChannelValueHigh => 0x49
  | .turnOnBlackout => 0x4A
  | .turnOffBlackout => 0x4C
  | .setLastTxCodeLow => 0x4E
  | .setLastTxCodeHigh => 0x4F

/-- The opcodes in the order of R93. -/
def Opcode.all : List Opcode :=
  [.reset, .versionRequest, .noOperation, .setTxStartCode, .turnTxOn, .turnTxOff, .setDmxChannelValueLow,
   .setDmxChannelValueHigh, .turnOnBlackout, .turnOffBlackout, .setLastTxCodeLow, .setLastTxCodeHigh]

/-- "`opcode` is the whole first byte" (R92): the opcode a byte is, if it is one. -/
def Opcode.ofByte (b : Byte) : Option Opcode := Opcode.all.find? (fun op => op.code == b)

/-- The format of each opcode (R93). -/
def Opcode.format : Opcode → Format
  | .reset => .f0
  | .versionRequest => .f0
  | .noOperation => .f0
  | .setTxStartCode => .f1
  | .turnTxOn => .f0
  | .turnTxOff => .f0
  | .setDmxChannelValueLow => .f2
  | .setDmxChannelValueHigh => .f2
  | .turnOnBlackout => .f0
  | .turnOffBlackout => .f0
  | .setLastTxCodeLow => .f1
  | .setLastTxCodeHigh => .f1

/-- The number of parameter bytes a format carries (R91). -/
def Format.arity : Format → Nat
  | .f0 => 0
  | .f1 => 1
  | .f2 => 2

/-- `ARITY` of R170. -/
def Opcode.arity (op : Opcode) : Nat := op.format.arity

/-- Format F0: the command, if there is no parameter byte (R91). -/
def fromF0 (i : Instr) : List Byte → Option Instr
  | [] => some i
  | _ :: _ => none

/-- Format F1: the command of the one parameter byte `p` (R91, R92). -/
def fromF1 (f : Byte → Instr) : List Byte → Option Instr
  | [p] => some (f p)
  | _ => none

/-- Format F2: the command of the parameter bytes `idx` and `val`, in that order (R91, R92). -/
def fromF2 (f : Byte → Byte → Instr) : List Byte → Option Instr
  | [idx, val] => some (f idx val)
  | _ => none

/-- The command of an opcode and all its parameters, in the order they are received (R91, R92, R74). -/
def assemble (op : Opcode) (ps : List Byte) : Option Instr :=
  match op with
  | .reset => fromF0 .reset ps
  | .versionRequest => fromF0 .versionRequest ps
  | .noOperation => fromF0 .noOperation ps
  | .setTxStartCode => fromF1 .setTxStartCode ps
  | .turnTxOn => fromF0 .turnTxOn ps
  | .turnTxOff => fromF0 .turnTxOff ps
  | .setDmxChannelValueLow => fromF2 .setDmxChannelValueLow ps
  | .setDmxChannelValueHigh => fromF2 .setDmxChannelValueHigh ps
  | .turnOnBlackout => fromF0 .turnOnBlackout ps
  | .turnOffBlackout => fromF0 .turnOffBlackout ps
  | .setLastTxCodeLow => fromF1 .setLastTxCodeLow ps
  | .setLastTxCodeHigh => fromF1 .setLastTxCodeHigh ps

/-- The numeric encoding of the phases (R25). -/
def Phase.code : Phase → BitVec 3
  | .brk => 0
  | .markAfterBreak => 1
  | .startBit => 2
  | .dataBits => 3
  | .stopBits => 4
  | .idle => 5

/-- The phases in the order of their codes. -/
def Phase.all : List Phase := [.brk, .markAfterBreak, .startBit, .dataBits, .stopBits, .idle]

/-- The phase a code names; codes 6 and 7 name none (R132). -/
def Phase.ofCode (c : BitVec 3) : Option Phase := Phase.all.find? (fun p => p.code == c)

/-! ### The decoder -/

/-- The dispatch table of R100: the case a tick runs, from `PHASE` and `BITPOS`. -/
def tickInstr : Phase → BitVec 3 → Instr
  | .brk, _ => .tickBreak
  | .markAfterBreak, _ => .tickMarkAfterBreak
  | .startBit, _ => .tickStartBit
  | .dataBits, bitpos => if bitpos.toNat < 7 then .tickDataBit else .tickLastDataBit
  | .stopBits, _ => .tickStopBits
  | .idle, _ => .tickIdle

/-- The tick case of a selector; codes 6 and 7 are refused (R100, R132). -/
def decodeTick (sel : TickSelector) : Except DecodeError Instr :=
  match Phase.ofCode sel.code with
  | some p => .ok (tickInstr p sel.bitpos)
  | none => .error (.noSuchPhase sel.code)

/-- One command from the head of a byte list, and the bytes after it: "A decoder finds the length of a command from its
opcode alone" (R94). -/
def decodeBytes : List Byte → Except DecodeError (Instr × List Byte)
  | [] => .error .noByte
  | b :: rest =>
    match Opcode.ofByte b with
    | none => .error (.unrecognised b)
    | some op =>
      match assemble op (rest.take op.arity) with
      | some i => .ok (i, rest.drop op.arity)
      | none => .error (.incomplete op rest)

/-- Decoding of a stimulus: exactly one command, or one tick (R90). -/
def decode : Stimulus → Except DecodeError Instr
  | .tick sel => decodeTick sel
  | .bytes bs =>
    match decodeBytes bs with
    | .ok (i, []) => .ok i
    | .ok (_, b :: rest) => .error (.trailing (b :: rest))
    | .error e => .error e

/-! ### The encoder -/

/-- The bytes of a command in the order they are sent (R91, R101); a tick case has none (R90). -/
def encodeCommand : Instr → List Byte
  | .reset => [0x22]
  | .versionRequest => [0x24]
  | .noOperation => [0x26]
  | .setTxStartCode p => [0x42, p]
  | .turnTxOn => [0x44]
  | .turnTxOff => [0x46]
  | .setDmxChannelValueLow idx val => [0x48, idx, val]
  | .setDmxChannelValueHigh idx val => [0x49, idx, val]
  | .turnOnBlackout => [0x4A]
  | .turnOffBlackout => [0x4C]
  | .setLastTxCodeLow p => [0x4E, p]
  | .setLastTxCodeHigh p => [0x4F, p]
  | .tickBreak => []
  | .tickMarkAfterBreak => []
  | .tickStartBit => []
  | .tickDataBit => []
  | .tickLastDataBit => []
  | .tickStopBits => []
  | .tickIdle => []

/-- A stimulus of each operation: the bytes of a command, a selector of a tick case (R90, R100). -/
def encode : Instr → Stimulus
  | .tickBreak => .tick ⟨0, 0⟩
  | .tickMarkAfterBreak => .tick ⟨1, 0⟩
  | .tickStartBit => .tick ⟨2, 0⟩
  | .tickDataBit => .tick ⟨3, 0⟩
  | .tickLastDataBit => .tick ⟨3, 7⟩
  | .tickStopBits => .tick ⟨4, 0⟩
  | .tickIdle => .tick ⟨5, 0⟩
  | .reset => .bytes (encodeCommand .reset)
  | .versionRequest => .bytes (encodeCommand .versionRequest)
  | .noOperation => .bytes (encodeCommand .noOperation)
  | .setTxStartCode p => .bytes (encodeCommand (.setTxStartCode p))
  | .turnTxOn => .bytes (encodeCommand .turnTxOn)
  | .turnTxOff => .bytes (encodeCommand .turnTxOff)
  | .setDmxChannelValueLow idx val => .bytes (encodeCommand (.setDmxChannelValueLow idx val))
  | .setDmxChannelValueHigh idx val => .bytes (encodeCommand (.setDmxChannelValueHigh idx val))
  | .turnOnBlackout => .bytes (encodeCommand .turnOnBlackout)
  | .turnOffBlackout => .bytes (encodeCommand .turnOffBlackout)
  | .setLastTxCodeLow p => .bytes (encodeCommand (.setLastTxCodeLow p))
  | .setLastTxCodeHigh p => .bytes (encodeCommand (.setLastTxCodeHigh p))

/-- Is the operation a host command (and not a tick case)? -/
def Instr.isCommand : Instr → Bool
  | .tickBreak => false
  | .tickMarkAfterBreak => false
  | .tickStartBit => false
  | .tickDataBit => false
  | .tickLastDataBit => false
  | .tickStopBits => false
  | .tickIdle => false
  | .reset => true
  | .versionRequest => true
  | .noOperation => true
  | .setTxStartCode _ => true
  | .turnTxOn => true
  | .turnTxOff => true
  | .setDmxChannelValueLow _ _ => true
  | .setDmxChannelValueHigh _ _ => true
  | .turnOnBlackout => true
  | .turnOffBlackout => true
  | .setLastTxCodeLow _ => true
  | .setLastTxCodeHigh _ => true

/-! ### The byte-by-byte decoder and whole streams -/

/-- One decode step of R170 on `DEC` alone: the new `DEC`, and what the byte completes, if it completes anything. A
parameter byte is never decoded as an opcode (R98). -/
def Dec.feed : Dec → Byte → Dec × Option Item
  | .awaitOpcode, b =>
    match Opcode.ofByte b with
    | none => (.awaitOpcode, some (.discarded b))
    | some op =>
      match assemble op [] with
      | some i => (.awaitOpcode, some (.command i))
      | none => (.awaitParams op [], none)
  | .awaitParams op ps, b =>
    match assemble op (ps ++ [b]) with
    | some i => (.awaitOpcode, some (.command i))
    | none => (.awaitParams op (ps ++ [b]), none)

/-- A whole stream from a decoder state: the commands and discarded bytes it holds, and the decoder state after it (R103). -/
def decodeStream : Dec → List Byte → List Item × Dec
  | d, [] => ([], d)
  | d, b :: bs =>
    match d.feed b with
    | (d', some it) => (it :: (decodeStream d' bs).1, (decodeStream d' bs).2)
    | (d', none) => decodeStream d' bs

/-- The bytes an item stands for. -/
def Item.bytes : Item → List Byte
  | .command i => encodeCommand i
  | .discarded b => [b]

/-- The bytes a decoder state has taken in and not completed. -/
def Dec.bytes : Dec → List Byte
  | .awaitOpcode => []
  | .awaitParams op ps => op.code :: ps

/-! ### Assembler notation and pseudo-instructions -/

/-- The expansions of R102; nothing outside its conditions. -/
def Pseudo.expand : Pseudo → Option (List Instr)
  | .setChannel c v =>
    if 1 ≤ c ∧ c ≤ 256 then some [.setDmxChannelValueLow (BitVec.ofNat 8 (c - 1)) v]
    else if 257 ≤ c ∧ c ≤ 512 then some [.setDmxChannelValueHigh (BitVec.ofNat 8 (c - 257)) v]
    else none
  | .setLast n =>
    if 1 ≤ n ∧ n ≤ 256 then some [.setLastTxCodeLow (BitVec.ofNat 8 (n - 1))]
    else if 257 ≤ n ∧ n ≤ 512 then some [.setLastTxCodeHigh (BitVec.ofNat 8 (n - 257))]
    else none
  | .guardedReset => some [.noOperation, .reset]

/-- One hexadecimal digit. -/
def hexDigit (n : Nat) : String :=
  match n % 16 with
  | 10 => "A"
  | 11 => "B"
  | 12 => "C"
  | 13 => "D"
  | 14 => "E"
  | 15 => "F"
  | d => toString d

/-- A byte as the assembler writes it, for example `0xFF` (R101). -/
def hexByte (b : Byte) : String := "0x" ++ hexDigit (b.toNat / 16) ++ hexDigit (b.toNat % 16)

/-- A command in the notation of R101: the mnemonic, then the parameters in byte order. A tick case is not encoded and
has the name of its row only. -/
def Instr.assembly : Instr → String
  | .reset => "RESET"
  | .versionRequest => "VERSION_REQUEST"
  | .noOperation => "NO_OPERATION"
  | .setTxStartCode p => "SET_TX_START_CODE " ++ hexByte p
  | .turnTxOn => "TURN_TX_ON"
  | .turnTxOff => "TURN_TX_OFF"
  | .setDmxChannelValueLow idx val => "SET_DMX_CHANNEL_VALUE_LOW " ++ hexByte idx ++ ", " ++ hexByte val
  | .setDmxChannelValueHigh idx val => "SET_DMX_CHANNEL_VALUE_HIGH " ++ hexByte idx ++ ", " ++ hexByte val
  | .turnOnBlackout => "TURN_ON_BLACKOUT"
  | .turnOffBlackout => "TURN_OFF_BLACKOUT"
  | .setLastTxCodeLow p => "SET_LAST_TX_CODE_LOW " ++ hexByte p
  | .setLastTxCodeHigh p => "SET_LAST_TX_CODE_HIGH " ++ hexByte p
  | .tickBreak => "TICK_BREAK"
  | .tickMarkAfterBreak => "TICK_MARK_AFTER_BREAK"
  | .tickStartBit => "TICK_START_BIT"
  | .tickDataBit => "TICK_DATA_BIT"
  | .tickLastDataBit => "TICK_LAST_DATA_BIT"
  | .tickStopBits => "TICK_STOP_BITS"
  | .tickIdle => "TICK_IDLE"

/-- A line of a host program: a command, or `.byte 0xNN` for a byte that is no opcode (R101). -/
def Item.assembly : Item → String
  | .command i => i.assembly
  | .discarded b => ".byte " ++ hexByte b

/-! ### The opcode table's words -/

/-- Byte `k` of a table word; bit 0 is the least significant bit of the first byte received. -/
def wordByte (w k : Nat) : Byte := BitVec.ofNat 8 (w / 2 ^ (8 * k))

/-- The selector a table word of a tick case stands for: `PHASE` in bits 2..0, as the table numbers it, and the model's
own choice of `BITPOS` in bits 5..3 (log 14). -/
def wordSelector (w : Nat) : TickSelector := ⟨BitVec.ofNat 3 w, BitVec.ofNat 3 (w / 8)⟩

/-- The stimulus a table word of `nbits` bits stands for. A word whose first byte is an opcode is a command: its bytes,
the missing ones zero. Another word of at most 8 bits, with nothing above bit 5, is a tick selector; what is left is
one byte on `rx`. -/
def tableStimulus (nbits w : Nat) : Stimulus :=
  if nbits < 8 then .tick (wordSelector w)
  else
    match Opcode.ofByte (wordByte w 0) with
    | some op => .bytes (wordByte w 0 :: (List.range op.arity).map (fun k => wordByte w (k + 1)))
    | none => if nbits ≤ 8 ∧ w < 64 then .tick (wordSelector w) else .bytes [wordByte w 0]

/-- The instruction the decoder reads from a table word. -/
def decodeTableWord (nbits w : Nat) : Option Instr :=
  match decode (tableStimulus nbits w) with
  | .ok i => some i
  | .error _ => none

end Sys2Proof
end

