-- ==== Sys2Proof/Config.lean ====
section
/-! DEFINITION. What the implementation fixes (00_scope.md R7, R10), the inputs of the environment (R15, R20), and the free
values: constants with no body, of which no proof can see a value. -/

namespace Sys2Proof

/-- The parameters of R7 and R10. A machine carries one record of them, which no step writes. -/
structure Params where
  durBreak     : Byte
  durMab       : Byte
  durBit       : Byte
  durStop      : Byte
  durIdle      : Byte
  txenReset    : Bool
  respLastHigh : Byte
  deriving DecidableEq, Repr

/-- The defaults of R7 and R10. -/
def Params.default : Params where
  durBreak := 20
  durMab := 220
  durBit := 249
  durStop := 239
  durIdle := 249
  txenReset := true
  respLastHigh := 0xCE

/-- What the environment presents at one step (R20): a power-on reset, a timer overflow, at most one received byte, and
the choice of the next write where a RESET is in progress (R186). -/
structure Moment where
  rst  : Bool
  tick : Bool
  rx   : Option Byte
  pick : Nat
  deriving DecidableEq, Repr, Inhabited

/-- Free value: the environment's `n`-th moment where State lists none. "A model's observation quantifies over every
interleaving" (R70). -/
opaque Config.freeMoment : Nat → Moment

/-- Free value: `BITPOS` after a power-on reset event, "any value" (R26, R255). -/
opaque Config.resetBitpos : Nat → BitVec 3

/-- Free value: `SHIFT` after a power-on reset event, "any value" (R27, R255). -/
opaque Config.resetShift : Nat → Byte

/-- Free value: `RELOAD` after a power-on reset event, unspecified (R32, R255). -/
opaque Config.resetReload : Nat → Byte

end Sys2Proof
end

