-- ==== Sys2Proof/Machine/State.lean ====
section
/-! DEFINITION. The state of the machine as plain data (10_state.md R20-R35, R50; R229's "any RESET sequence in progress"),
the reasons a step can stop, and the state after power-on reset (R250). -/

namespace Sys2Proof.Machine

/-- The contents of the Channel Buffer (R21, R60): the entries that are not 0x00, by rising index. An index that is not
listed reads as 0x00, the reset value of every entry. -/
abbrev Memory := List Host.Cell

/-- One of the 516 register writes of a successful RESET (R186). -/
inductive ResetWrite where
  | buf (i : Fin 513)
  | blackout
  | last
  | txen
  deriving DecidableEq, Repr

/-- What one step does (R70, R228, R256). -/
inductive Event where
  /-- A power-on reset (R250). -/
  | powerOn
  /-- One G step (R120). -/
  | tick
  /-- One write of the RESET in progress (R186); `pick` chooses which. -/
  | resetWrite (pick : Nat)
  /-- One H decode step (R170). -/
  | byte (b : Byte)
  /-- Neither a tick nor a byte is there to be served. -/
  | quiet
  deriving DecidableEq, Repr

/-- The machine's state. The first fifteen fields are R50's record, under the spec's names. -/
structure State where
  /-- `BUF` (R21) -/
  buf      : Memory
  /-- `BLACKOUT` (R22) -/
  blackout : Byte
  /-- `LAST` (R23) -/
  last     : Word10
  /-- `TXEN` (R24) -/
  txen     : Bool
  /-- `PHASE` (R25) -/
  phase    : Phase
  /-- `BITPOS` (R26) -/
  bitpos   : BitVec 3
  /-- `SHIFT` (R27) -/
  shift    : Byte
  /-- `REMAIN` (R28) -/
  remain   : Word10
  /-- `FLAST` (R29) -/
  flast    : Word10
  /-- `PEND` (R30) -/
  pend     : Level
  /-- `PIN`, the signal `dmx_out` (R31, R20) -/
  pin      : Level
  /-- `RELOAD`, the signal `timer_reload` (R32, R20) -/
  reload   : Byte
  /-- `DEC` (R33) -/
  dec      : Dec
  /-- `LASTNOP` (R34) -/
  lastnop  : Bool
  /-- `RESP`, the bytes sent on `tx`, oldest first (R35, R20) -/
  resp     : List Byte
  /-- The writes of the RESET in progress that are not done yet; empty when none is in progress (R186, R229). -/
  resetSeq : List ResetWrite
  /-- The bytes received on `rx` and not yet decoded, oldest first (R62, R228). -/
  rxQueue  : List Byte
  /-- The coming moments of the environment, next first; after them `Config.freeMoment` (R15, R70). -/
  inputs   : List Moment
  /-- The model's own counter, the index of the free values. -/
  draws    : Nat
  /-- The parameters (R7, R10); no step writes them. -/
  params   : Params
  deriving DecidableEq, Repr

/-- Why the machine faults. The block itself "raises no exception and takes no trap" (R220). -/
inductive Fault where
  /-- Raised by the StartBit step on a read of a `BUF` index outside 0..512. R65 says no access can name one; safe. -/
  | noSuchEntry (index : Nat)
  deriving DecidableEq, Repr

/-- Why the machine refuses to give a meaning. -/
inductive Refusal where
  /-- Raised by an arm of exec that has no meaning yet; safe. No arm raises it. -/
  | notModelled (mnemonic : String)
  /-- Raised by every step and every tick case in a state whose `LAST`, `FLAST` or `REMAIN` is outside the values R132 and
  93_implementation_defined.md item 16 admit: "must refuse a state holding such a value"; safe. -/
  | unreachableState
  /-- Raised by a tick case run in a state whose `PHASE` and `BITPOS` select another case (R100); no step does that; safe. -/
  | caseNotSelected
  deriving DecidableEq, Repr

/-- The state right after power-on reset (R250), with the default parameters. R255 leaves `BITPOS`, `SHIFT` and `RELOAD`
unspecified: zero here is a DESIGN CHOICE (log 5). The environment is unknown: no moment is listed (log 1). -/
def State.reset : State where
  buf := []
  blackout := 0x01
  last := 512
  txen := Params.default.txenReset
  phase := .brk
  bitpos := 0
  shift := 0
  remain := 512
  flast := 512
  pend := false
  pin := true
  reload := 0
  dec := .awaitOpcode
  lastnop := false
  resp := []
  resetSeq := []
  rxQueue := []
  inputs := []
  draws := 0
  params := Params.default

end Sys2Proof.Machine
end

