-- ==== Sys2Proof/Machine/Flags.lean ====
section
/-! DEFINITION. The values of the block's flags and levels: `LASTNOP` (R171), the mask `BLACKOUT` and the data-bit level
(R125). -/

namespace Sys2Proof.Machine

/-- `LASTNOP` after a completed command: "1 if `op` is NO_OPERATION, and ... 0 for every other opcode" (R171). -/
def lastnopAfter (op : Opcode) : Bool := decide (op = .noOperation)

/-- `BLACKOUT` with blackout on (R22, R180). -/
def blackoutOn : Byte := 0x00

/-- `BLACKOUT` in normal operation, also its reset value (R22, R181). -/
def blackoutOff : Byte := 0x01

/-- `LEVEL(s, b, m)`: high if `((s >> b) & m) != 0` (R125); defined for every mask (R22). -/
def level (s : Byte) (b : BitVec 3) (m : Byte) : Level := decide ((s >>> b.toNat) &&& m ≠ 0)

end Sys2Proof.Machine
end

