-- ==== Sys2Proof/Machine/Operands.lean ====
section
/-! DEFINITION. Operand assembly (30_encoding.md R95): parameters are "unsigned and zero-extended to 10 bits before arithmetic".
Every result fits (R172). -/

namespace Sys2Proof.Machine

/-- The index of the start code (R21, R95). -/
def startCodeIndex : Nat := 0

/-- `zext_10(idx) + 1`, in 1..256 (R95, R176). -/
def lowIndex (idx : Byte) : Nat := (zext10 idx + 1).toNat

/-- `zext_10(idx) + 257`, in 257..512 (R95, R177). -/
def highIndex (idx : Byte) : Nat := (zext10 idx + 257).toNat

/-- `zext_10(p) + 1`, in 1..256 (R95, R184). -/
def lowLast (p : Byte) : Word10 := zext10 p + 1

/-- `zext_10(p) + 257`, in 257..512 (R95, R185). -/
def highLast (p : Byte) : Word10 := zext10 p + 257

/-- `FLAST - REMAIN`, the index of the slot being sent (R124); not below zero in a legal state (R45, R150). -/
def State.slotIndex (s : State) : Nat := s.flast.toNat - s.remain.toNat

end Sys2Proof.Machine
end

