-- ==== Sys2Proof/Machine/Ops.lean ====
section
/-! DEFINITION. The named operations the meanings are written over: the Channel Buffer, the completion of a command (R171),
the frame of a tick (R120), the RESET sequence (R186), power-on reset (R250), and the taking of the environment's
inputs (R15, R70, R228). The block has no exception entry to share: "Tick entry saves no state, changes no mode,
switches no stack and reads no vector table" (R229), and its return "restores nothing" (R230). -/

namespace Sys2Proof.Machine

/-- The answer of a step. -/
abbrev Result := Host.Outcome State Fault Refusal

/-! ### The Channel Buffer -/

/-- The number of entries, `BUF_SIZE` (R6). -/
def bufSize : Nat := 513

/-- The byte at an index; an index that is not listed reads as 0x00 (R21). -/
def Memory.get : Memory → Nat → Byte
  | [], _ => 0
  | (b, w) :: m, a => if a = b then w else Memory.get m a

/-- `MemRead(i, 1)` (R12): nothing outside 0..512 (R60). -/
def Memory.load (m : Memory) (a : Nat) : Option Byte := if a < bufSize then some (m.get a) else none

/-- The memory without an entry for an index. -/
def Memory.erase (m : Memory) (a : Nat) : Memory := m.filter (fun c => c.1 != a)

/-- Put an entry in its place by rising index. -/
def Memory.insert : Memory → Nat → Byte → Memory
  | [], a, v => [(a, v)]
  | (b, w) :: m, a, v => if a < b then (a, v) :: (b, w) :: m else (b, w) :: Memory.insert m a v

/-- `MemWrite(i, 1, v)` (R12), keeping the canonical form. -/
def Memory.set (m : Memory) (a : Nat) (v : Byte) : Memory :=
  if v = 0 then m.erase a else (m.erase a).insert a v

/-- The entries from `lo` on are in canonical form: indices strictly rising and below 513, no entry 0x00. -/
def Memory.wfFrom : Nat → Memory → Bool
  | _, [] => true
  | lo, (a, v) :: m => decide (lo ≤ a) && decide (a < bufSize) && decide (v ≠ 0) && Memory.wfFrom (a + 1) m

/-- The canonical form, in which equal memories are equal lists. -/
def Memory.wf (m : Memory) : Bool := Memory.wfFrom 0 m

/-- `BUF[i] <- v`, one atomic write (R66). -/
def State.writeBuf (s : State) (a : Nat) (v : Byte) : State := { s with buf := s.buf.set a v }

/-! ### Legal states -/

/-- The values R132 and 93_implementation_defined.md item 16 admit: `1 <= LAST <= 512`, `1 <= FLAST <= 512`, `REMAIN <= FLAST`. -/
def State.legal (s : State) : Bool :=
  decide (1 ≤ s.last.toNat) && decide (s.last.toNat ≤ 512) && decide (1 ≤ s.flast.toNat) &&
    decide (s.flast.toNat ≤ 512) && decide (s.remain.toNat ≤ s.flast.toNat)

/-! ### Completing a command -/

/-- Parts 2 and 3 of EXECUTE: `LASTNOP`, then the response bytes in order (R171). -/
def State.complete (s : State) (op : Opcode) (response : List Byte) : State :=
  { s with lastnop := lastnopAfter op, resp := s.resp ++ response }

/-- EXECUTE (R171): the command's effect, then parts 2 and 3. -/
def execute (op : Opcode) (effect : State → State) (response : List Byte) (s : State) : Result :=
  .next ((effect s).complete op response)

/-! ### The frame of a tick -/

/-- `DUR(PHASE)` (R128). -/
def reloadFor (p : Params) : Phase → Byte
  | .brk => p.durBreak
  | .markAfterBreak => p.durMab
  | .startBit => p.durBit
  | .dataBits => p.durBit
  | .stopBits => p.durStop
  | .idle => p.durIdle

/-- Parts (a) and (b) of the tick: the reload of the phase now beginning, then the level decided at the previous tick (R120). -/
def State.beginInterval (s : State) : State := { s with reload := reloadFor s.params s.phase, pin := s.pend }

/-- The next phase and the next level, which part (c) sets together (R121). -/
def State.decideNext (s : State) (phase : Phase) (pend : Level) : State := { s with phase := phase, pend := pend }

/-- The tick step of R120 for the case `c`: refused where `PHASE` and `BITPOS` select another case (R100) or the state
holds an unreachable value (R132); otherwise parts (a) and (b), then the case's part (c). -/
def tickCase (c : Instr) (partC : State → Result) (s : State) : Result :=
  if tickInstr s.phase s.bitpos = c then
    if s.legal then partC s.beginInterval else .refused .unreachableState
  else .refused .caseNotSelected

/-! ### The RESET sequence -/

/-- RESET's writes to the entries below `n` (R179), for `n` up to 513. -/
def ResetWrite.bufs : Nat → List ResetWrite
  | 0 => []
  | n + 1 => .buf (Fin.ofNat 513 n) :: ResetWrite.bufs n

/-- The 516 writes of a successful RESET (R186); how they are listed says nothing of their order. -/
def ResetWrite.all : List ResetWrite := .blackout :: .last :: .txen :: ResetWrite.bufs bufSize

/-- RESET's guard has passed: its writes are now to be done, none is done yet (R186). -/
def State.beginReset (s : State) : State := { s with resetSeq := ResetWrite.all }

/-- One of RESET's writes (R179). -/
def ResetWrite.apply (w : ResetWrite) (s : State) : State :=
  match w with
  | .buf i => s.writeBuf i.val 0
  | .blackout => { s with blackout := blackoutOff }
  | .last => { s with last := 512 }
  | .txen => { s with txen := s.params.txenReset }

/-- Which of `n` remaining writes `pick` chooses: every one can be chosen (R186, "a model admits every order"). -/
def pickIndex (pick n : Nat) : Nat := pick % n

/-- One H step of a RESET in progress: the chosen write. The step of the last write also completes the command: "The
response `A2` is emitted after the last write" (R186). -/
def State.resetStep (s : State) (pick : Nat) : State :=
  match s.resetSeq[pickIndex pick s.resetSeq.length]? with
  | none => s
  | some w =>
    let rest := s.resetSeq.eraseIdx (pickIndex pick s.resetSeq.length)
    let t := w.apply { s with resetSeq := rest }
    if rest = [] then t.complete .reset [0xA2] else t

/-! ### Power-on reset -/

/-- The power-on reset event: every register at its reset value in one atomic event (R250), whatever was in progress
(R256). `BITPOS`, `SHIFT` and `RELOAD` are free values (R255). The parameters and the environment's future stay. -/
def State.powerOn (s : State) : State :=
  { State.reset with
    txen := s.params.txenReset
    bitpos := Config.resetBitpos s.draws
    shift := Config.resetShift s.draws
    reload := Config.resetReload s.draws
    inputs := s.inputs
    draws := s.draws
    params := s.params }

/-! ### The environment -/

/-- The moment the next step sees: the next one listed, else a free value (R15, R70). -/
def State.moment (s : State) : Moment :=
  match s.inputs with
  | m :: _ => m
  | [] => Config.freeMoment s.draws

/-- Past that moment. -/
def State.advance (s : State) : State := { s with inputs := s.inputs.tail, draws := s.draws + 1 }

/-- A byte arriving on `rx` waits behind those received before it: "strictly in arrival order" (R62). -/
def State.receive (s : State) (rx : Option Byte) : State := { s with rxQueue := s.rxQueue ++ rx.toList }

/-- The oldest waiting byte is taken. -/
def State.takeByte (s : State) : State := { s with rxQueue := s.rxQueue.tail }

/-- What a step serves: a power-on reset at any time (R256); then the tick, because "When a tick and a received byte are
pending at the same moment, the G step is taken first" (R228); then the RESET in progress; then the oldest byte. -/
def State.serves (s : State) (m : Moment) : Event :=
  if m.rst then .powerOn
  else if m.tick then .tick
  else if s.resetSeq ≠ [] then .resetWrite m.pick
  else
    match s.rxQueue with
    | b :: _ => .byte b
    | [] => .quiet

/-! ### Placing a stimulus -/

/-- A moment with only a tick. -/
def tickMoment : Moment := ⟨false, true, none, 0⟩

/-- A moment in which nothing arrives. -/
def quietMoment : Moment := ⟨false, false, none, 0⟩

/-- A moment with only a received byte. -/
def byteMoment (b : Byte) : Moment := ⟨false, false, some b, 0⟩

/-- Place a stimulus so that the very next step runs it. A tick: `PHASE` (and, in DataBits, `BITPOS`) as the selector says,
and a tick arriving. Command bytes: all but the last already taken by the decoder, the last one waiting first on `rx`,
no RESET in progress, and a moment in which nothing else arrives. DESIGN CHOICE (log 15): a selector with code 6 or 7, which
`decodeTick` refuses, cannot be placed, so `PHASE` and `BITPOS` stay and the tick listed runs the current case; bytes that are
not one whole command are placed in the same way, only the last of them served by the next step. -/
def State.place (s : State) : Stimulus → State
  | .tick sel =>
    { s with
      phase := (Phase.ofCode sel.code).getD s.phase
      bitpos := if sel.code = 3 then sel.bitpos else s.bitpos
      inputs := tickMoment :: s.inputs }
  | .bytes bs =>
    { s with
      dec := (decodeStream .awaitOpcode bs.dropLast).2
      rxQueue := bs.drop (bs.length - 1) ++ s.rxQueue
      resetSeq := []
      inputs := quietMoment :: s.inputs }

end Sys2Proof.Machine
end

