-- ==== Sys2Proof/Machine/Command.lean ====
section
/-! DEFINITION. The twelve host commands (41_host_commands.md R174-R185): each is EXECUTE (R171) of its effect and response. -/

namespace Sys2Proof.Machine

/-- RESET: R179. With the guard met, its 516 writes follow as H steps of their own (R186, `State.resetStep`), and with the
last one `LASTNOP <- 0` and the response 0xA2; with the guard not met, the response 0xA3 and no other change. -/
def execReset (s : State) : Result :=
  if s.lastnop then .next s.beginReset else execute .reset id [0xA3] s

/-- VERSION_REQUEST: R178. -/
def execVersionRequest (s : State) : Result := execute .versionRequest id [0xA4, 0x14, 0x54, 0x53, 0x00] s

/-- NO_OPERATION: R175. -/
def execNoOperation (s : State) : Result := execute .noOperation id [0xA6] s

/-- SET_TX_START_CODE: R174. -/
def execSetTxStartCode (p : Byte) (s : State) : Result :=
  execute .setTxStartCode (fun s => s.writeBuf startCodeIndex p) [0xC2] s

/-- TURN_TX_ON: R182. -/
def execTurnTxOn (s : State) : Result := execute .turnTxOn (fun s => { s with txen := true }) [] s

/-- TURN_TX_OFF: R183. -/
def execTurnTxOff (s : State) : Result := execute .turnTxOff (fun s => { s with txen := false }) [] s

/-- SET_DMX_CHANNEL_VALUE_LOW: R176. -/
def execSetDmxChannelValueLow (idx val : Byte) (s : State) : Result :=
  execute .setDmxChannelValueLow (fun s => s.writeBuf (lowIndex idx) val) [] s

/-- SET_DMX_CHANNEL_VALUE_HIGH: R177. -/
def execSetDmxChannelValueHigh (idx val : Byte) (s : State) : Result :=
  execute .setDmxChannelValueHigh (fun s => s.writeBuf (highIndex idx) val) [] s

/-- TURN_ON_BLACKOUT: R180. -/
def execTurnOnBlackout (s : State) : Result :=
  execute .turnOnBlackout (fun s => { s with blackout := blackoutOn }) [0xCA] s

/-- TURN_OFF_BLACKOUT: R181. -/
def execTurnOffBlackout (s : State) : Result :=
  execute .turnOffBlackout (fun s => { s with blackout := blackoutOff }) [0xCC] s

/-- SET_LAST_TX_CODE_LOW: R184. -/
def execSetLastTxCodeLow (p : Byte) (s : State) : Result :=
  execute .setLastTxCodeLow (fun s => { s with last := lowLast p }) [0xCE] s

/-- SET_LAST_TX_CODE_HIGH: R185. -/
def execSetLastTxCodeHigh (p : Byte) (s : State) : Result :=
  execute .setLastTxCodeHigh (fun s => { s with last := highLast p }) [s.params.respLastHigh] s

end Sys2Proof.Machine
end

