-- ==== Sys2Proof/Machine/Tick.lean ====
section
/-! DEFINITION. The seven cases of the tick operation (40_frame_generator.md R122-R131). -/

namespace Sys2Proof.Machine

/-- TICK_BREAK: R122. -/
def execTickBreak (s : State) : Result :=
  tickCase .tickBreak (fun t => .next (t.decideNext .markAfterBreak true)) s

/-- TICK_MARK_AFTER_BREAK: R123. -/
def execTickMarkAfterBreak (s : State) : Result :=
  tickCase .tickMarkAfterBreak (fun t => .next (t.decideNext .startBit false)) s

/-- Part (c) of the StartBit step: the slot's byte is latched and the level of its bit 0 computed (R124). -/
def latchSlot (t : State) : Result :=
  match t.buf.load t.slotIndex with
  | none => .fault (.noSuchEntry t.slotIndex)
  | some v => .next ({ t with shift := v, bitpos := 0 }.decideNext .dataBits (level v 0 t.blackout))

/-- TICK_START_BIT: R124. -/
def execTickStartBit (s : State) : Result := tickCase .tickStartBit latchSlot s

/-- Part (c) of the DataBits step that is not the last: the next bit, and its level (R126). -/
def nextDataBit (t : State) : State :=
  { t with bitpos := t.bitpos + 1, pend := level t.shift (t.bitpos + 1) t.blackout }

/-- TICK_DATA_BIT: R126. -/
def execTickDataBit (s : State) : Result := tickCase .tickDataBit (fun t => .next (nextDataBit t)) s

/-- TICK_LAST_DATA_BIT: R127. -/
def execTickLastDataBit (s : State) : Result :=
  tickCase .tickLastDataBit (fun t => .next (t.decideNext .stopBits true)) s

/-- The cursor update of the StopBits step, done "whether or not `TXEN = 1`": the frame restart samples `LAST`, "here and
only here" (R130). -/
def nextSlot (t : State) : State :=
  if t.remain = 0 then { t with remain := t.last, flast := t.last } else { t with remain := t.remain - 1 }

/-- The phase after a slot: Break after the last one of the frame, else StartBit (R130). -/
def phaseAfterSlot (t : State) : Phase := if t.remain = 0 then .brk else .startBit

/-- Part (c) of the StopBits step (R130). -/
def endSlot (t : State) : State :=
  if t.txen then (nextSlot t).decideNext (phaseAfterSlot t) false else (nextSlot t).decideNext .idle true

/-- TICK_STOP_BITS: R130. -/
def execTickStopBits (s : State) : Result := tickCase .tickStopBits (fun t => .next (endSlot t)) s

/-- Part (c) of the Idle step (R131). -/
def idleNext (t : State) : State := if t.txen then t.decideNext .startBit false else t.decideNext .idle true

/-- TICK_IDLE: R131. -/
def execTickIdle (s : State) : Result := tickCase .tickIdle (fun t => .next (idleNext t)) s

end Sys2Proof.Machine
end

