-- ==== Sys2Proof/Machine/Dispatch.lean ====
section
/-! DEFINITION. One arm per constructor of `Instr`: for a host command EXECUTE (R171), for a tick case the G step (R120). -/

namespace Sys2Proof.Machine

def exec (i : Instr) (s : State) : Host.Outcome State Fault Refusal :=
  match i with
  | .reset => Sys2Proof.Machine.execReset s
  | .versionRequest => Sys2Proof.Machine.execVersionRequest s
  | .noOperation => Sys2Proof.Machine.execNoOperation s
  | .setTxStartCode p => Sys2Proof.Machine.execSetTxStartCode p s
  | .turnTxOn => Sys2Proof.Machine.execTurnTxOn s
  | .turnTxOff => Sys2Proof.Machine.execTurnTxOff s
  | .setDmxChannelValueLow idx val => Sys2Proof.Machine.execSetDmxChannelValueLow idx val s
  | .setDmxChannelValueHigh idx val => Sys2Proof.Machine.execSetDmxChannelValueHigh idx val s
  | .turnOnBlackout => Sys2Proof.Machine.execTurnOnBlackout s
  | .turnOffBlackout => Sys2Proof.Machine.execTurnOffBlackout s
  | .setLastTxCodeLow p => Sys2Proof.Machine.execSetLastTxCodeLow p s
  | .setLastTxCodeHigh p => Sys2Proof.Machine.execSetLastTxCodeHigh p s
  | .tickBreak => Sys2Proof.Machine.execTickBreak s
  | .tickMarkAfterBreak => Sys2Proof.Machine.execTickMarkAfterBreak s
  | .tickStartBit => Sys2Proof.Machine.execTickStartBit s
  | .tickDataBit => Sys2Proof.Machine.execTickDataBit s
  | .tickLastDataBit => Sys2Proof.Machine.execTickLastDataBit s
  | .tickStopBits => Sys2Proof.Machine.execTickStopBits s
  | .tickIdle => Sys2Proof.Machine.execTickIdle s

end Sys2Proof.Machine
end

