-- ==== Sys2Proof/Machine/Agents.lean ====
section
/-! DEFINITION. The steps of the agents (00_scope.md R14): G on a tick, H on a received byte, H on a write of a RESET in
progress, and the serving of one moment of the environment. -/

namespace Sys2Proof.Machine

/-- Agent G: `PHASE` and `BITPOS` select the case of the tick (R90, R100, R120). -/
def gStep (s : State) : Result := exec (tickInstr s.phase s.bitpos) s

/-- Agent H: one decode step on a received byte (R170). A completed command is executed with `DEC` back at AwaitOpcode; a
discarded byte changes nothing (R96). -/
def hStep (b : Byte) (s : State) : Result :=
  match s.dec.feed b with
  | (d, some (.command i)) => exec i { s with dec := d }
  | (_, some (.discarded _)) => .next s
  | (d, none) => .next { s with dec := d }

/-- What an event does. -/
def State.serve (s : State) : Event → Result
  | .powerOn => .next s.powerOn
  | .tick => gStep s
  | .resetWrite pick => .next (s.resetStep pick)
  | .byte b => hStep b s.takeByte
  | .quiet => .next s

/-- The state in which a step serves its event: past the moment, and with the byte that arrived in it waiting. -/
def State.arrived (s : State) : State := s.advance.receive s.moment.rx

/-- What the next step serves. -/
def State.event (s : State) : Event := s.arrived.serves s.moment

/-- One step of the block (R70): refused in a state that holds an unreachable value (R132), else the event is served. -/
def blockStep (s : State) : Result :=
  if s.legal then s.arrived.serve s.event else .refused .unreachableState

end Sys2Proof.Machine
end

