-- ==== Sys2Proof/Machine/Step.lean ====
section
/-! DEFINITION. One step of the machine, and the placing of an opcode-table word where the next step runs it. -/

namespace Sys2Proof.Machine

/-- One atomic step: a G step, an H step, a power-on reset, or a moment in which nothing is there to be served (R70). -/
def step : State → Host.Outcome State Fault Refusal := blockStep

/-- `s` with a table word as the next step's stimulus. The block fetches nothing (R63): a command word arrives on `rx`, a
tick word is a tick at its `PHASE` (log 15). -/
def State.withFetchWord (s : State) (nbits w : Nat) : State := s.place (tableStimulus nbits w)

end Sys2Proof.Machine
end

