-- ==== Sys2Proof/Machine/Waveform.lean ====
section
/-! DEFINITION. What the block outputs: the untimed waveform (40_frame_generator.md R140), the timed one under an assumed
`INTERVAL` (R141, R231), and the sums of R153 and R275. No step reads anything of this file (R8). -/

namespace Sys2Proof.Machine

/-- One interval `w_k = (level_k, reload_k, phase_k)` (R140). -/
structure WaveInterval where
  level  : Level
  reload : Byte
  phase  : Phase
  deriving DecidableEq, Repr

/-- The interval that a tick from `s` to `t` begins: `PIN` and `RELOAD` after it, `PHASE` before it (R140). -/
def intervalOf (s t : State) : WaveInterval := ⟨t.pin, t.reload, s.phase⟩

/-- `n` steps. -/
def run : Nat → State → Result
  | 0, s => .next s
  | n + 1, s =>
    match step s with
    | .next t => run n t
    | .fault f => .fault f
    | .refused r => .refused r

/-- `n` ticks and nothing else. -/
def runTicks : Nat → State → Result
  | 0, s => .next s
  | n + 1, s =>
    match gStep s with
    | .next t => runTicks n t
    | .fault f => .fault f
    | .refused r => .refused r

/-- The intervals of the ticks among the next `n` steps (R140, R276). -/
def waveform : Nat → State → List WaveInterval
  | 0, _ => []
  | n + 1, s =>
    match step s with
    | .next t => if s.event = .tick then intervalOf s t :: waveform n t else waveform n t
    | .fault _ => []
    | .refused _ => []

/-- The sum of the reload values of some intervals (R153). -/
def reloadSum : List WaveInterval → Nat
  | [] => 0
  | w :: ws => w.reload.toNat + reloadSum ws

/-- Agent T: the time of the next tick, in timer counts, from the time of the last one (R141, R231). `interval` is the OPEN
parameter `INTERVAL` (R8), `e` the delay beyond the programmed interval. -/
def nextTickTime (interval : Byte → Nat) (t : Nat) (reload : Byte) (e : Nat) : Nat := t + interval reload + e

/-- A level held on the pin from one time to another, in timer counts. -/
structure TimedLevel where
  level : Level
  start : Nat
  stop  : Nat
  deriving DecidableEq, Repr

/-- The timed waveform of R141, for the intervals from tick `k` on, the first of which is at time `t`. `e` and `d` are the
draws `e_k` and `d_k`: "The pin holds `level_k` from `t_k + d_k` to `t_{k+1} + d_{k+1}`". Here `e k` delays tick k+1. -/
def timedWaveform (interval : Byte → Nat) (e d : Nat → Nat) : Nat → Nat → List WaveInterval → List TimedLevel
  | _, _, [] => []
  | k, t, w :: ws =>
    let t' := nextTickTime interval t w.reload (e k)
    ⟨w.level, t + d k, t' + d (k + 1)⟩ :: timedWaveform interval e d (k + 1) t' ws

/-- The duration of some intervals in timer counts with every `e_k = 0` (R153, R278). -/
def duration (interval : Byte → Nat) : List WaveInterval → Nat
  | [] => 0
  | w :: ws => interval w.reload + duration interval ws

end Sys2Proof.Machine
end

