-- ==== Sys2Proof/WellFormed.lean ====
section
/-! DEFINITION. What a well-formed operation is. An `Instr` needs no check of its operands: "Every parameter field accepts
all 256 values. No parameter value is reserved or illegal." (R92), and R65 has `idx` typed as an 8-bit value, which
the type does. The checks are those of raw forms: a command as bytes, the decoder's state, a tick selector, a
pseudo-instruction. (`Opcode.arity` stands in Decode.lean, where a repair can mend it.) -/

namespace Sys2Proof

/-- Every operand value of every operation is legal (R92). -/
def Instr.wellFormed : Instr → Bool
  | .reset => true
  | .versionRequest => true
  | .noOperation => true
  | .setTxStartCode _ => true
  | .turnTxOn => true
  | .turnTxOff => true
  | .setDmxChannelValueLow _ _ => true
  | .setDmxChannelValueHigh _ _ => true
  | .turnOnBlackout => true
  | .turnOffBlackout => true
  | .setLastTxCodeLow _ => true
  | .setLastTxCodeHigh _ => true
  | .tickBreak => true
  | .tickMarkAfterBreak => true
  | .tickStartBit => true
  | .tickDataBit => true
  | .tickLastDataBit => true
  | .tickStopBits => true
  | .tickIdle => true

/-- `EXECUTE(op, ps)` is defined for exactly `ARITY(op)` parameters (R170, R171). -/
def wellFormedCommand (op : Opcode) (ps : List Byte) : Bool := ps.length == op.arity

/-- "The list is shorter than `op`'s parameter count." (R33) -/
def Dec.wellFormed : Dec → Bool
  | .awaitOpcode => true
  | .awaitParams op ps => decide (ps.length < op.arity)

/-- `PHASE` codes 6 and 7 name no phase (R25, R100, R132). -/
def TickSelector.wellFormed (sel : TickSelector) : Bool := decide (sel.code.toNat < 6)

/-- The conditions of R102. -/
def Pseudo.wellFormed : Pseudo → Bool
  | .setChannel c _ => decide (1 ≤ c) && decide (c ≤ 512)
  | .setLast n => decide (1 ≤ n) && decide (n ≤ 512)
  | .guardedReset => true

end Sys2Proof
end

