-- ==== Sys2Proof/Safety.lean ====
section
/-! DEFINITION. What claims about the block are stated in: its invariants (10_state.md R45-R48), the ownership split (R36,
R37), the expected shape of slots and frames (R151, R154), and the conditions on time (R225, R277). -/

namespace Sys2Proof.Machine

/-- The invariants of the reachable states. The clauses `buf`, `resetGuard` and `resetOnce` are about the model's own
representation and its reading of RESET (logs 10, 12 and 13). -/
structure State.Inv (s : State) : Prop where
  /-- the Channel Buffer is in canonical form (the model's, log 13) -/
  buf : s.buf.wf = true
  /-- R45, R132 -/
  legal : s.legal = true
  /-- R48 -/
  blackout : s.blackout = blackoutOn ∨ s.blackout = blackoutOff
  /-- R47, first line -/
  pendLow : s.phase = .brk ∨ s.phase = .startBit → s.pend = false
  /-- R47, second line -/
  pendHigh : s.phase = .markAfterBreak ∨ s.phase = .stopBits ∨ s.phase = .idle → s.pend = true
  /-- R47, third line: the level of bit `BITPOS` with one of the two masks -/
  pendData : s.phase = .dataBits →
    s.pend = level s.shift s.bitpos blackoutOn ∨ s.pend = level s.shift s.bitpos blackoutOff
  /-- R33 -/
  dec : s.dec.wellFormed = true
  /-- a RESET in progress has passed its guard, which its last write clears, and no byte is decoded meanwhile (the model's,
  logs 10 and 12) -/
  resetGuard : s.resetSeq ≠ [] → s.lastnop = true ∧ s.dec = .awaitOpcode
  /-- each of RESET's writes is done once (R186; that the list holds those left is the model's, log 10) -/
  resetOnce : s.resetSeq.Nodup

/-- The registers G alone writes are the same (R36). -/
structure SameGenerator (s t : State) : Prop where
  phase : t.phase = s.phase
  bitpos : t.bitpos = s.bitpos
  shift : t.shift = s.shift
  remain : t.remain = s.remain
  flast : t.flast = s.flast
  pend : t.pend = s.pend
  pin : t.pin = s.pin
  reload : t.reload = s.reload

/-- The registers H alone writes are the same (R37), and so is the RESET in progress (R229). -/
structure SameHost (s t : State) : Prop where
  buf : t.buf = s.buf
  blackout : t.blackout = s.blackout
  last : t.last = s.last
  txen : t.txen = s.txen
  dec : t.dec = s.dec
  lastnop : t.lastnop = s.lastnop
  resp : t.resp = s.resp
  resetSeq : t.resetSeq = s.resetSeq

/-- A byte that completes the command `i` in the decoder state of `s`. -/
def Completes (s : State) (b : Byte) (i : Instr) : Prop := s.dec.feed b = (.awaitOpcode, some (.command i))

/-- The state past one moment, with `q` waiting on `rx`. -/
def State.past (s : State) (q : List Byte) : State :=
  { s with inputs := s.inputs.tail, draws := s.draws + 1, rxQueue := q }

/-- The bytes waiting on `rx` once the next moment's byte, if any, has arrived. -/
def State.waiting (s : State) : List Byte := s.rxQueue ++ s.moment.rx.toList

/-- The next step is an H decode step on `b`, with `bs` left waiting: a legal state, no power-on reset, no tick, no RESET in
progress, and `b` the oldest byte (R170, R228). -/
structure ServesByte (s : State) (b : Byte) (bs : List Byte) : Prop where
  legal : s.legal = true
  noRst : s.moment.rst = false
  noTick : s.moment.tick = false
  noReset : s.resetSeq = []
  oldest : s.waiting = b :: bs

/-- The values R250 gives for power-on reset, with the parameters `p`; it leaves `BITPOS`, `SHIFT` and `RELOAD` open. -/
structure AtReset (p : Params) (t : State) : Prop where
  buf : ∀ a, t.buf.get a = 0x00
  blackout : t.blackout = 0x01
  last : t.last = 512
  txen : t.txen = p.txenReset
  phase : t.phase = .brk
  remain : t.remain = 512
  flast : t.flast = 512
  pend : t.pend = false
  pin : t.pin = true
  dec : t.dec = .awaitOpcode
  lastnop : t.lastnop = false
  resp : t.resp = []

/-- The 12 opcode bytes of R93, written out. -/
def opcodeBytes : List Byte := [0x22, 0x24, 0x26, 0x42, 0x44, 0x46, 0x48, 0x49, 0x4A, 0x4C, 0x4E, 0x4F]

/-- A slot whose ten ticks take `b k` to `a k`, with anything the host may do between two ticks: it leaves the generator's
registers and the parameters alone (R37). -/
structure SlotRun (b a : Nat → State) : Prop where
  start : (b 0).Inv
  phase : (b 0).phase = .startBit
  legal : ∀ k, k < 10 → (b k).legal = true
  tick : ∀ k, k < 10 → gStep (b k) = .next (a k)
  host : ∀ k, k < 9 → SameGenerator (a k) (b (k + 1))
  params : ∀ k, k < 10 → (b k).params = (b 0).params

/-- The interval of data bit `b` of a slot carrying `v`, its level computed with mask `m` (R154). -/
def dataInterval (p : Params) (v m : Byte) (b : Nat) : WaveInterval :=
  ⟨level v (BitVec.ofNat 3 b) m, p.durBit, .dataBits⟩

/-- The state after some of RESET's writes, done one after another (R186). -/
def afterWrites (ws : List ResetWrite) (s : State) : State := ws.foldl (fun (u : State) (w : ResetWrite) => w.apply u) s

/-- Every StartBit step of slot `a` that finds entry `a` of `BUF` as in `m` latches `v` (R72, R124). -/
def Latches (m : Memory) (a : Nat) (v : Byte) : Prop :=
  ∀ u : State, u.legal = true → u.phase = .startBit → u.slotIndex = a → u.buf.get a = m.get a →
    ∃ w, gStep u = .next w ∧ w.shift = v

/-- The next tick computes a data-bit level (R68, R125). -/
def ComputesLevel (u : State) : Prop := u.phase = .startBit ∨ u.phase = .dataBits ∧ u.bitpos.toNat < 7

/-- `LAST = n` is sampled at a frame restart, and no other tick changes `FLAST` (R130, R156). -/
def SampledAtRestart (n : Word10) : Prop :=
  ∀ u : State, u.legal = true → u.last = n →
    ∃ w, gStep u = .next w ∧
      if u.phase = .stopBits ∧ u.remain = 0 then w.flast = n ∧ w.remain = n else w.flast = u.flast

/-- The ten intervals of a slot carrying `v`, every level computed with mask `m` (R154). -/
def slotWave (p : Params) (v m : Byte) : List WaveInterval :=
  ⟨false, p.durBit, .startBit⟩ :: ((List.range 8).map (dataInterval p v m) ++ [⟨true, p.durStop, .stopBits⟩])

/-- The intervals of slots `j`, `j + 1`, ..., `n` slots in all. -/
def slotsWave (p : Params) (buf : Memory) (m : Byte) : Nat → Nat → List WaveInterval
  | 0, _ => []
  | n + 1, j => slotWave p (buf.get j) m ++ slotsWave p buf m n (j + 1)

/-- The intervals of a frame with `FLAST = n`: Break, MarkAfterBreak, then slots 0..n (R151, R17). -/
def frameWave (p : Params) (buf : Memory) (m : Byte) (n : Nat) : List WaveInterval :=
  ⟨false, p.durBreak, .brk⟩ :: ⟨true, p.durMab, .markAfterBreak⟩ :: slotsWave p buf m (n + 1) 0

/-- The number of ticks of such a frame (R152). -/
def frameTicks (n : Nat) : Nat := 2 + 10 * (n + 1)

/-- The next `n` moments are ticks without a power-on reset; bytes may arrive in them. -/
def OnlyTicks (n : Nat) (s : State) : Prop :=
  n ≤ s.inputs.length ∧ ∀ m ∈ s.inputs.take n, m.tick = true ∧ m.rst = false

/-- The liveness premise (R225): every tick delay is within the OPEN bound `EPS_MAX`. -/
def Live (epsMax : Nat) (e : Nat → Nat) : Prop := ∀ k, e k ≤ epsMax

/-- The condition of R277 on the parameters, times in microseconds, every `e_k` zero. `tCount` is `T_COUNT` (R9). The
source gives no tolerance for "close to": `tol` is the model's (log 18). -/
structure Conformant (p : Params) (interval : Byte → Nat) (tCount tol : Rat) : Prop where
  brk : 92 ≤ interval p.durBreak * tCount
  mab : 12 ≤ interval p.durMab * tCount
  bit : 4 - tol ≤ interval p.durBit * tCount ∧ interval p.durBit * tCount ≤ 4 + tol
  stop : 8 - tol ≤ interval p.durStop * tCount ∧ interval p.durStop * tCount ≤ 8 + tol

end Sys2Proof.Machine
end

