-- ==== Sys2Proof/Certificates/Slice0/Obligations.lean ====
section
/-! DEFINITION. The statements about the block, from the numbered rules of spec/. -/

open Sys2Proof Sys2Proof.Machine

/-! ### Encoding -/

/-- O1. The twelve opcode bytes of R93, with their formats (R91), and the seven selectors of R100, decode as the tables
say; the bytes after the command are left. -/
def Obligations.WrittenWordsDecode : Prop :=
  ∀ (x y : Byte) (rest : List Byte) (bp : BitVec 3),
    decodeBytes (0x22 :: rest) = .ok (.reset, rest) ∧
    decodeBytes (0x24 :: rest) = .ok (.versionRequest, rest) ∧
    decodeBytes (0x26 :: rest) = .ok (.noOperation, rest) ∧
    decodeBytes (0x42 :: x :: rest) = .ok (.setTxStartCode x, rest) ∧
    decodeBytes (0x44 :: rest) = .ok (.turnTxOn, rest) ∧
    decodeBytes (0x46 :: rest) = .ok (.turnTxOff, rest) ∧
    decodeBytes (0x48 :: x :: y :: rest) = .ok (.setDmxChannelValueLow x y, rest) ∧
    decodeBytes (0x49 :: x :: y :: rest) = .ok (.setDmxChannelValueHigh x y, rest) ∧
    decodeBytes (0x4A :: rest) = .ok (.turnOnBlackout, rest) ∧
    decodeBytes (0x4C :: rest) = .ok (.turnOffBlackout, rest) ∧
    decodeBytes (0x4E :: x :: rest) = .ok (.setLastTxCodeLow x, rest) ∧
    decodeBytes (0x4F :: x :: rest) = .ok (.setLastTxCodeHigh x, rest) ∧
    decodeTick ⟨0, bp⟩ = .ok .tickBreak ∧
    decodeTick ⟨1, bp⟩ = .ok .tickMarkAfterBreak ∧
    decodeTick ⟨2, bp⟩ = .ok .tickStartBit ∧
    decodeTick ⟨3, 6⟩ = .ok .tickDataBit ∧
    decodeTick ⟨3, 7⟩ = .ok .tickLastDataBit ∧
    decodeTick ⟨4, bp⟩ = .ok .tickStopBits ∧
    decodeTick ⟨5, bp⟩ = .ok .tickIdle

/-- O2. Decode and encode agree on bytes, in both directions: a byte list decodes to an instruction exactly if the
instruction is a command and the list is its encoding. -/
def Obligations.BytesDecodeToExactlyTheirCommand : Prop :=
  ∀ (bs : List Byte) (i : Instr), decode (.bytes bs) = .ok i ↔ i.isCommand = true ∧ bs = encodeCommand i

/-- O3. A stream of encoded commands, from a decoder that awaits an opcode, decodes to exactly those commands, in order,
and the decoder awaits an opcode again. -/
def Obligations.CommandStreamDecodesToItsCommands : Prop :=
  ∀ is : List Instr, (∀ i ∈ is, i.isCommand = true) →
    decodeStream .awaitOpcode (is.flatMap encodeCommand) = (is.map .command, .awaitOpcode)

/-- O4. R103: every finite byte sequence decodes to complete commands and discarded bytes, possibly followed by one
incomplete command, and no bit is dropped: the items' bytes and the decoder's pending bytes together are the bytes that
were pending and the sequence. A discarded byte is none of the twelve, every command is a command, and a well-formed
decoder state stays well-formed. -/
def Obligations.StreamDecodingLosesNothing : Prop :=
  ∀ (d : Dec) (bs : List Byte), d.wellFormed = true →
    d.bytes ++ bs = (decodeStream d bs).1.flatMap Item.bytes ++ (decodeStream d bs).2.bytes ∧
    (decodeStream d bs).2.wellFormed = true ∧
    (∀ b, Item.discarded b ∈ (decodeStream d bs).1 → b ∉ opcodeBytes) ∧
    (∀ i, Item.command i ∈ (decodeStream d bs).1 → i.isCommand = true)

/-- O5. R98: once an F1 or F2 opcode is recognised, the next one or two bytes are its parameters, whatever their values. -/
def Obligations.ParameterBytesAreNeverOpcodes : Prop :=
  (∀ op : Opcode, 0 < op.arity → Dec.awaitOpcode.feed op.code = (.awaitParams op [], none)) ∧
  ∀ (op : Opcode) (ps : List Byte) (b : Byte), ps.length < op.arity →
    if ps.length + 1 = op.arity then
      ∃ i, (Dec.awaitParams op ps).feed b = (.awaitOpcode, some (.command i)) ∧
        encodeCommand i = op.code :: (ps ++ [b])
    else (Dec.awaitParams op ps).feed b = (.awaitParams op (ps ++ [b]), none)

/-- O6. R271: any two bytes that are not opcodes bring the decoder back to AwaitOpcode. -/
def Obligations.TwoNonOpcodesResynchronise : Prop :=
  ∀ (d : Dec) (b c : Byte), d.wellFormed = true → b ∉ opcodeBytes → c ∉ opcodeBytes →
    (decodeStream d [b, c]).2 = .awaitOpcode

/-- O7. R96: an unlisted byte, received while the decoder expects an opcode, is discarded: no response, no register
changes, and the decoder still awaits an opcode. Exactly twelve bytes are opcodes. -/
def Obligations.UnlistedByteIsDiscarded : Prop :=
  (∀ b : Byte, (Opcode.ofByte b).isSome = true ↔ b ∈ opcodeBytes) ∧
  ∀ (s : State) (b : Byte) (bs : List Byte), ServesByte s b bs → s.dec = .awaitOpcode → b ∉ opcodeBytes →
    step s = .next (s.past bs)

/-! ### The host commands -/

/-- O8. R174; every StartBit step of slot 0 after the write latches the new start code. -/
def Obligations.SetTxStartCodeWritesEntryZero : Prop :=
  ∀ (p : Byte) (s : State), decode (.bytes [0x42, p]) = .ok (.setTxStartCode p) ∧
    ∃ t, exec (.setTxStartCode p) s = .next t ∧
      t = { s with buf := t.buf, lastnop := false, resp := s.resp ++ [0xC2] } ∧
      t.buf.get 0 = p ∧ (∀ a, a ≠ 0 → t.buf.get a = s.buf.get a) ∧ Latches t.buf 0 p

/-- O9. R175; an unrecognised byte after it leaves `LASTNOP = 1`, and every recognised command but RESET and NO_OPERATION
itself clears it. What else can clear it is in O47. -/
def Obligations.NoOperationSetsTheGuard : Prop :=
  ∀ s : State, decode (.bytes [0x26]) = .ok .noOperation ∧
    ∃ t, exec .noOperation s = .next t ∧ t = { s with lastnop := true, resp := s.resp ++ [0xA6] } ∧
      (∀ b, b ∉ opcodeBytes → hStep b { t with dec := .awaitOpcode } = .next { t with dec := .awaitOpcode }) ∧
      ∀ i, i.isCommand = true → i ≠ .noOperation → i ≠ .reset → ∃ u, exec i t = .next u ∧ u.lastnop = false

/-- O10. R176: the index is `zext_10(idx) + 1`; every StartBit step of that slot after the write latches the value. -/
def Obligations.SetChannelLowWritesItsEntry : Prop :=
  ∀ (idx val : Byte) (s : State), decode (.bytes [0x48, idx, val]) = .ok (.setDmxChannelValueLow idx val) ∧
    lowIndex idx = idx.toNat + 1 ∧
    ∃ t, exec (.setDmxChannelValueLow idx val) s = .next t ∧
      t = { s with buf := t.buf, lastnop := false } ∧
      t.buf.get (lowIndex idx) = val ∧ (∀ a, a ≠ lowIndex idx → t.buf.get a = s.buf.get a) ∧
      Latches t.buf (lowIndex idx) val

/-- O11. R177: the index is `zext_10(idx) + 257`, and none exceeds 512. -/
def Obligations.SetChannelHighWritesItsEntry : Prop :=
  ∀ (idx val : Byte) (s : State), decode (.bytes [0x49, idx, val]) = .ok (.setDmxChannelValueHigh idx val) ∧
    highIndex idx = idx.toNat + 257 ∧ highIndex idx ≤ 512 ∧
    ∃ t, exec (.setDmxChannelValueHigh idx val) s = .next t ∧
      t = { s with buf := t.buf, lastnop := false } ∧
      t.buf.get (highIndex idx) = val ∧ (∀ a, a ≠ highIndex idx → t.buf.get a = s.buf.get a) ∧
      Latches t.buf (highIndex idx) val

/-- O12. R178. -/
def Obligations.VersionRequestAnswersTheVersion : Prop :=
  ∀ s : State, decode (.bytes [0x24]) = .ok .versionRequest ∧
    exec .versionRequest s = .next { s with lastnop := false, resp := s.resp ++ [0xA4, 0x14, 0x54, 0x53, 0x00] }

/-- O13. R179, the guard not met: response 0xA3 and no other change. -/
def Obligations.UnguardedResetFails : Prop :=
  ∀ s : State, s.lastnop = false → decode (.bytes [0x22]) = .ok .reset ∧
    exec .reset s = .next { s with lastnop := false, resp := s.resp ++ [0xA3] }

/-- O14. R179 and R186, the guard met: RESET starts its 516 writes, each of them once; as long as one is left nothing is
answered and the guard stands; and after the last, in whatever order they were chosen, the shared state is at its
defaults, `LASTNOP` is 0, 0xA2 has been sent, and nothing else has changed. That `LASTNOP` is cleared and 0xA2 sent in
the step of the last write is the model's choice (log 10). -/
def Obligations.GuardedResetRestoresTheSharedState : Prop :=
  ResetWrite.all.length = 516 ∧ ResetWrite.all.Nodup ∧ (∀ w, w ∈ ResetWrite.all) ∧
  ∀ s : State, s.lastnop = true →
    ∃ t, exec .reset s = .next t ∧ t = { s with resetSeq := ResetWrite.all } ∧
      (∀ picks : List Nat, picks.length < 516 →
        (picks.foldl State.resetStep t).resetSeq.length = 516 - picks.length ∧
        (picks.foldl State.resetStep t).lastnop = true ∧ (picks.foldl State.resetStep t).resp = s.resp) ∧
      (∀ picks : List Nat, picks.length = 516 →
        ∃ u, picks.foldl State.resetStep t = u ∧
          u = { s with
            buf := u.buf, blackout := 0x01, last := 512, txen := s.params.txenReset, lastnop := false,
            resp := s.resp ++ [0xA2], resetSeq := [] } ∧
          (∀ a, a ≤ 512 → u.buf.get a = 0x00) ∧ (∀ a, 512 < a → u.buf.get a = s.buf.get a))

/-- O15. R180; given again it only answers again, and with this mask every level computed is low. -/
def Obligations.TurnOnBlackoutClearsTheMask : Prop :=
  ∀ s : State, decode (.bytes [0x4A]) = .ok .turnOnBlackout ∧
    ∃ t, exec .turnOnBlackout s = .next t ∧
      t = { s with blackout := 0x00, lastnop := false, resp := s.resp ++ [0xCA] } ∧
      exec .turnOnBlackout t = .next { t with resp := t.resp ++ [0xCA] } ∧
      ∀ u : State, u.legal = true → ComputesLevel u → u.blackout = t.blackout →
        ∃ w, gStep u = .next w ∧ w.pend = false

/-- O16. R181; given again it only answers again, and with this mask every level computed is the bit of the latched byte. -/
def Obligations.TurnOffBlackoutSetsTheMask : Prop :=
  ∀ s : State, decode (.bytes [0x4C]) = .ok .turnOffBlackout ∧
    ∃ t, exec .turnOffBlackout s = .next t ∧
      t = { s with blackout := 0x01, lastnop := false, resp := s.resp ++ [0xCC] } ∧
      exec .turnOffBlackout t = .next { t with resp := t.resp ++ [0xCC] } ∧
      ∀ u : State, u.legal = true → ComputesLevel u → u.blackout = t.blackout →
        ∃ w, gStep u = .next w ∧ w.pend = w.shift.getLsbD w.bitpos.toNat

/-- O17. R182; it cancels a halt that no StopBits step has seen yet, and the next Idle step goes to StartBit. -/
def Obligations.TurnTxOnWritesTxenOnly : Prop :=
  ∀ s : State, decode (.bytes [0x44]) = .ok .turnTxOn ∧
    ∃ t, exec .turnTxOn s = .next t ∧ t = { s with txen := true, lastnop := false } ∧
      (∀ r, exec .turnTxOff s = .next r → exec .turnTxOn r = .next t) ∧
      ∀ u : State, u.legal = true → u.phase = .idle → u.txen = t.txen → ∃ w, gStep u = .next w ∧ w.phase = .startBit

/-- O18. R183; the next StopBits step halts, with the slot's stop bits on the pin. -/
def Obligations.TurnTxOffWritesTxenOnly : Prop :=
  ∀ s : State, decode (.bytes [0x46]) = .ok .turnTxOff ∧
    ∃ t, exec .turnTxOff s = .next t ∧ t = { s with txen := false, lastnop := false } ∧
      ∀ u : State, u.Inv → u.phase = .stopBits → u.txen = t.txen →
        ∃ w, gStep u = .next w ∧ w.phase = .idle ∧ w.pin = true

/-- O19. R184: `LAST` is `p + 1`, sampled at the next frame restart and not before. -/
def Obligations.SetLastLowWritesLast : Prop :=
  ∀ (p : Byte) (s : State), decode (.bytes [0x4E, p]) = .ok (.setLastTxCodeLow p) ∧
    ∃ t, exec (.setLastTxCodeLow p) s = .next t ∧
      t = { s with last := t.last, lastnop := false, resp := s.resp ++ [0xCE] } ∧ t.last.toNat = p.toNat + 1 ∧
      SampledAtRestart t.last

/-- O20. R185: `LAST` is `p + 257`, and the response is the parameter `RESP_LAST_HIGH`, by default 0xCE. -/
def Obligations.SetLastHighWritesLast : Prop :=
  Params.default.respLastHigh = 0xCE ∧
  ∀ (p : Byte) (s : State), decode (.bytes [0x4F, p]) = .ok (.setLastTxCodeHigh p) ∧
    ∃ t, exec (.setLastTxCodeHigh p) s = .next t ∧
      t = { s with last := t.last, lastnop := false, resp := s.resp ++ [s.params.respLastHigh] } ∧
      t.last.toNat = p.toNat + 257 ∧ SampledAtRestart t.last

/-- O21. R69: every host write is idempotent: a command given twice leaves what it leaves when given once, but for the
responses. RESET is not among them: its second run fails (R179). -/
def Obligations.RepeatedCommandChangesOnlyResponses : Prop :=
  ∀ (i : Instr) (s : State), i.isCommand = true → i ≠ .reset →
    ∃ t u, exec i s = .next t ∧ exec i t = .next u ∧ u = { t with resp := u.resp }

/-- O22. R102: the pseudo-instructions, within their conditions and outside them. -/
def Obligations.PseudoInstructionsDoWhatTheyName : Prop :=
  (∀ (c : Nat) (v : Byte) (s : State), 1 ≤ c → c ≤ 512 →
    ∃ i t, (Pseudo.setChannel c v).expand = some [i] ∧ exec i s = .next t ∧
      t = { s with buf := t.buf, lastnop := false } ∧
      t.buf.get c = v ∧ ∀ a, a ≠ c → t.buf.get a = s.buf.get a) ∧
  (∀ (n : Nat) (s : State), 1 ≤ n → n ≤ 512 →
    ∃ i t, (Pseudo.setLast n).expand = some [i] ∧ exec i s = .next t ∧
      t = { s with
        last := t.last, lastnop := false,
        resp := s.resp ++ [if n ≤ 256 then 0xCE else s.params.respLastHigh] } ∧
      t.last.toNat = n) ∧
  Pseudo.guardedReset.expand = some [.noOperation, .reset] ∧
  ∀ p : Pseudo, p.wellFormed = false → p.expand = none

/-! ### The tick -/

/-- O23. R125: the level is high exactly if a bit of the mask meets a bit of the byte shifted right by `b`; with mask 0x01
it is bit `b`, with mask 0x00 it is low. -/
def Obligations.LevelIsTheMaskedBit : Prop :=
  ∀ (v : Byte) (b : BitVec 3) (m : Byte),
    (level v b m = true ↔ ∃ k, k < 8 ∧ v.getLsbD (b.toNat + k) = true ∧ m.getLsbD k = true) ∧
    level v b 0x01 = v.getLsbD b.toNat ∧ level v b 0x00 = false

/-- O24. R122. In a state that meets the invariants `PEND` is 0, so the pin goes low. -/
def Obligations.BreakStep : Prop :=
  ∀ s : State, s.phase = .brk → s.legal = true → tickInstr s.phase s.bitpos = .tickBreak ∧
    exec .tickBreak s = .next { s with
      reload := s.params.durBreak, pin := s.pend, phase := .markAfterBreak, pend := true } ∧
    (s.Inv → s.pend = false)

/-- O25. R123. -/
def Obligations.MarkAfterBreakStep : Prop :=
  ∀ s : State, s.phase = .markAfterBreak → s.legal = true → tickInstr s.phase s.bitpos = .tickMarkAfterBreak ∧
    exec .tickMarkAfterBreak s = .next { s with
      reload := s.params.durMab, pin := s.pend, phase := .startBit, pend := false } ∧
    (s.Inv → s.pend = true)

/-- O26. R124: the slot's index is `FLAST - REMAIN`, which exists; the byte there is latched. -/
def Obligations.StartBitStep : Prop :=
  ∀ s : State, s.phase = .startBit → s.legal = true → tickInstr s.phase s.bitpos = .tickStartBit ∧
    s.slotIndex + s.remain.toNat = s.flast.toNat ∧ s.slotIndex ≤ 512 ∧
    exec .tickStartBit s = .next { s with
      reload := s.params.durBit, pin := s.pend, shift := s.buf.get s.slotIndex, bitpos := 0, phase := .dataBits,
      pend := level (s.buf.get s.slotIndex) 0 s.blackout } ∧
    (s.Inv → s.pend = false)

/-- O27. R126: the level of the next data bit, by the new `BITPOS`, which is at most 7. -/
def Obligations.DataBitStep : Prop :=
  ∀ s : State, s.phase = .dataBits → s.bitpos.toNat < 7 → s.legal = true →
    tickInstr s.phase s.bitpos = .tickDataBit ∧ (s.bitpos + 1).toNat = s.bitpos.toNat + 1 ∧
    exec .tickDataBit s = .next { s with
      reload := s.params.durBit, pin := s.pend, bitpos := s.bitpos + 1,
      pend := level s.shift (s.bitpos + 1) s.blackout }

/-- O28. R127: `BITPOS` and `SHIFT` are unchanged. -/
def Obligations.LastDataBitStep : Prop :=
  ∀ s : State, s.phase = .dataBits → s.bitpos = 7 → s.legal = true →
    tickInstr s.phase s.bitpos = .tickLastDataBit ∧
    exec .tickLastDataBit s = .next { s with
      reload := s.params.durBit, pin := s.pend, phase := .stopBits, pend := true }

/-- O29. R130: the cursor moves whether or not `TXEN = 1`; `LAST` is sampled at the frame restart. -/
def Obligations.StopBitsStep : Prop :=
  ∀ s : State, s.phase = .stopBits → s.legal = true → tickInstr s.phase s.bitpos = .tickStopBits ∧
    exec .tickStopBits s = .next { s with
      reload := s.params.durStop, pin := s.pend,
      remain := if s.remain = 0 then s.last else s.remain - 1,
      flast := if s.remain = 0 then s.last else s.flast,
      phase := if s.txen then (if s.remain = 0 then .brk else .startBit) else .idle,
      pend := !s.txen } ∧
    (s.remain ≠ 0 → (s.remain - 1).toNat + 1 = s.remain.toNat) ∧ (s.Inv → s.pend = true)

/-- O30. R131: the cursor is unchanged. -/
def Obligations.IdleStep : Prop :=
  ∀ s : State, s.phase = .idle → s.legal = true → tickInstr s.phase s.bitpos = .tickIdle ∧
    exec .tickIdle s = .next { s with
      reload := s.params.durIdle, pin := s.pend, phase := if s.txen then .startBit else .idle, pend := !s.txen } ∧
    (s.Inv → s.pend = true)

/-! ### One step -/

/-- O31. R120, R228: on a tick, the step is the case that `PHASE` and `BITPOS` select; it comes before any byte, and the
bytes wait. -/
def Obligations.StepRunsTheSelectedTickFirst : Prop :=
  ∀ s : State, s.legal = true → s.moment.rst = false → s.moment.tick = true →
    step s = exec (tickInstr s.phase s.bitpos) (s.past s.waiting)

/-- O32. R170: when the byte completes a command's encoding, the step executes that command, the decoder awaiting an
opcode again. -/
def Obligations.StepExecutesTheCompletedCommand : Prop :=
  ∀ (s : State) (b : Byte) (bs : List Byte) (i : Instr), ServesByte s b bs → i.isCommand = true →
    s.dec.bytes ++ [b] = encodeCommand i → step s = exec i { s.past bs with dec := .awaitOpcode }

/-- O33. R170, R173: a byte that leaves a command incomplete changes the decoder only. -/
def Obligations.IncompleteCommandHoldsOnlyTheDecoder : Prop :=
  ∀ (s : State) (b : Byte) (bs : List Byte) (op : Opcode) (ps : List Byte), ServesByte s b bs →
    ps.length < op.arity → s.dec.bytes ++ [b] = op.code :: ps →
    step s = .next { s.past bs with dec := .awaitParams op ps }

/-- O34. R67, R186: with a RESET in progress, no power-on reset and no tick, the step does one of the writes left. With the
last one it completes the command (log 10). Received bytes wait (log 12). -/
def Obligations.StepDoesOneResetWrite : Prop :=
  ∀ s : State, s.legal = true → s.moment.rst = false → s.moment.tick = false → s.resetSeq ≠ [] →
    ∃ (k : Nat) (w : ResetWrite) (u : State), s.resetSeq[k]? = some w ∧ u = w.apply { s.past s.waiting with resetSeq := s.resetSeq.eraseIdx k } ∧
      step s = .next (if s.resetSeq.length = 1 then { u with lastnop := false, resp := s.resp ++ [0xA2] } else u)

/-- O35. R250, R256: a power-on reset, at any time, sets every register in one step; it discards an incomplete command and
a RESET in progress, with its response. -/
def Obligations.PowerOnResetIsOneEvent : Prop :=
  ∀ s : State, s.legal = true → s.moment.rst = true →
    ∃ t, step s = .next t ∧ AtReset s.params t ∧ t.resetSeq = [] ∧ t.params = s.params

/-- O36. R250: the state after reset holds the values the spec gives, with the default parameters of R7 and R10. -/
def Obligations.ResetStateHoldsTheGivenValues : Prop :=
  AtReset State.reset.params State.reset ∧ State.reset.txen = true ∧
  State.reset.params = ⟨20, 220, 249, 239, 249, true, 0xCE⟩

/-! ### Invariants and rules of the whole machine -/

/-- O37. The invariants hold after reset. Three clauses of `State.Inv` are the model's, as in O38 (logs 10, 12 and 13). -/
def Obligations.ResetStateMeetsTheInvariant : Prop := State.reset.Inv

/-- O38. Every step keeps the invariants R45, R47, R48 and R33. Three clauses of `State.Inv` are the model's: the canonical
form of `BUF` (log 13); that a RESET in progress has `LASTNOP = 1` and `DEC = AwaitOpcode` (logs 10 and 12); and that its
list of writes left has no repeats (log 10). -/
def Obligations.StepKeepsTheInvariant : Prop :=
  ∀ s t : State, s.Inv → step s = .next t → t.Inv

/-- O39. R133, R220: in a legal state every step goes on, to a legal state; and no step of any state faults. -/
def Obligations.LegalStepAlwaysAnswers : Prop :=
  (∀ s : State, s.legal = true → ∃ t, step s = .next t ∧ t.legal = true) ∧
  ∀ (s : State) (f : Fault), step s ≠ .fault f

/-- O40. R132, and 93_implementation_defined.md item 16: a state that holds an unreachable value of `LAST`, `FLAST` or
`REMAIN` (R45) is refused, and so are `PHASE` codes 6 and 7. That every step refuses it, and not the tick alone, is the
model's reading (log 8). -/
def Obligations.UnreachableValuesAreRefused : Prop :=
  (∀ s : State, ¬(1 ≤ s.last.toNat ∧ s.last.toNat ≤ 512 ∧ 1 ≤ s.flast.toNat ∧ s.flast.toNat ≤ 512 ∧
      s.remain.toNat ≤ s.flast.toNat) →
    step s = .refused .unreachableState ∧ gStep s = .refused .unreachableState) ∧
  ∀ bp : BitVec 3, decodeTick ⟨6, bp⟩ = .error (.noSuchPhase 6) ∧ decodeTick ⟨7, bp⟩ = .error (.noSuchPhase 7)

/-- O41. R36: a tick changes no register of the host interface and no shared register; the bytes received wait. -/
def Obligations.TickLeavesTheHostRegisters : Prop :=
  ∀ s t : State, s.moment.rst = false → s.moment.tick = true → step s = .next t →
    SameHost s t ∧ t.params = s.params ∧ t.rxQueue = s.waiting

/-- O42. R37, R129: a step without a tick and without a power-on reset writes no register of the generator (not the pin, not
the reload value, not the phase), and reads none: with other values in them it does the same to everything else. And where
no byte and no RESET in progress is there to be served either, it changes nothing but the model's own place in the
environment's moments: that such a moment is a step at all is the model's choice (log 2). -/
def Obligations.OnlyATickMovesTheGenerator : Prop :=
  (∀ s t : State, s.moment.rst = false → s.moment.tick = false → step s = .next t →
    SameGenerator s t ∧ t.params = s.params) ∧
  (∀ s u : State, s.legal = true → u.legal = true → s.moment.rst = false → s.moment.tick = false →
    SameHost s u → u.params = s.params → u.rxQueue = s.rxQueue → u.inputs = s.inputs → u.draws = s.draws →
    ∃ t v, step s = .next t ∧ step u = .next v ∧ SameHost t v ∧ v.rxQueue = t.rxQueue) ∧
  ∀ s : State, s.legal = true → s.moment.rst = false → s.moment.tick = false → s.resetSeq = [] → s.waiting = [] →
    step s = .next (s.past [])

/-- O43. R68, R134: a tick reads, beside the generator's registers, one entry of `BUF` at the StartBit step, `BLACKOUT` where
it computes a level, `LAST` at a frame's end, `TXEN` at the StopBits and Idle steps, and nothing else. -/
def Obligations.TickReadsOnlyItsOperands : Prop :=
  ∀ s u : State, s.legal = true → u.legal = true → SameGenerator s u → u.params = s.params →
    (s.phase = .startBit → u.buf.get s.slotIndex = s.buf.get s.slotIndex) →
    (s.phase = .startBit ∨ s.phase = .dataBits ∧ s.bitpos.toNat < 7 → u.blackout = s.blackout) →
    (s.phase = .stopBits → s.remain = 0 → u.last = s.last) →
    (s.phase = .stopBits ∨ s.phase = .idle → u.txen = s.txen) →
    ∃ s' u', gStep s = .next s' ∧ gStep u = .next u' ∧ SameGenerator s' u'

/-- O44. R46: outside DataBits the values of `BITPOS` and `SHIFT` are not read: with other values in them a step answers the
same but for these two registers, and where it enters DataBits, the same altogether. -/
def Obligations.BitRegistersAreNotReadOutsideDataBits : Prop :=
  ∀ (s : State) (b : BitVec 3) (v : Byte), s.legal = true → s.phase ≠ .dataBits →
    ∃ t u, step s = .next t ∧ step { s with bitpos := b, shift := v } = .next u ∧
      t = { u with bitpos := t.bitpos, shift := t.shift } ∧ (t.phase = .dataBits → t = u)

/-- O45. R49: entry 0 of `BUF` changes only where SET_TX_START_CODE completes, to its parameter, or in a RESET or a power-on
reset, to 0x00. -/
def Obligations.OnlyTheStartCodeCommandSetsEntryZero : Prop :=
  ∀ s t : State, step s = .next t → t.buf.get 0 ≠ s.buf.get 0 →
    (∃ b bs p, ServesByte s b bs ∧ Completes s b (.setTxStartCode p) ∧ t.buf.get 0 = p) ∨
    ((s.resetSeq ≠ [] ∨ s.moment.rst = true) ∧ t.buf.get 0 = 0x00)

/-- O46. R156, R263: `FLAST` changes only at the StopBits step that ends a frame, to the `LAST` of that moment, or in a
power-on reset. -/
def Obligations.LastIsSampledOnlyAtTheRestart : Prop :=
  ∀ s t : State, step s = .next t → t.flast ≠ s.flast →
    s.moment.rst = true ∨
    (s.moment.tick = true ∧ s.phase = .stopBits ∧ s.remain = 0 ∧ t.flast = s.last ∧ t.remain = s.last)

/-- O47. R34, R171, R250: only NO_OPERATION sets `LASTNOP`; and only the completion of another command that is not RESET, the
last write of a RESET (log 10), or a power-on reset clears it. -/
def Obligations.OnlyNoOperationSetsTheGuard : Prop :=
  (∀ s t : State, step s = .next t → s.lastnop = false → t.lastnop = true →
    ∃ b bs, ServesByte s b bs ∧ Completes s b .noOperation) ∧
  ∀ s t : State, step s = .next t → s.lastnop = true → t.lastnop = false →
    (∃ b bs i, ServesByte s b bs ∧ Completes s b i ∧ i.isCommand = true ∧ i ≠ .noOperation ∧ i ≠ .reset) ∨
    (s.moment.rst = false ∧ s.moment.tick = false ∧ s.resetSeq.length = 1 ∧ t.resetSeq = [] ∧
      t.resp = s.resp ++ [0xA2]) ∨
    s.moment.rst = true

/-- O48. R35: but for a power-on reset, RESP is only appended to. -/
def Obligations.ResponsesAreOnlyAppended : Prop :=
  ∀ s t : State, s.moment.rst = false → step s = .next t → ∃ r, t.resp = s.resp ++ r

/-- O49. Equal contents of the Channel Buffer are equal data. -/
def Obligations.EqualContentsAreEqualBuffers : Prop :=
  ∀ m m' : Memory, m.wf = true → m'.wf = true → (∀ a, a ≤ 512 → m.get a = m'.get a) → m = m'

/-! ### Ordering -/

/-- O50. R72: a write to the entry that the StartBit step latches, if it comes first, is what the slot carries; if it comes
after, the slot carries the old value, and the slot's next StartBit step latches the new one. -/
def Obligations.LatchOrderDecidesTheSlot : Prop :=
  ∀ (s : State) (v : Byte), s.legal = true → s.phase = .startBit →
    (∃ t, gStep (s.writeBuf s.slotIndex v) = .next t ∧ t.shift = v ∧ t.buf.get s.slotIndex = v) ∧
    (∃ t, gStep s = .next t ∧ (t.writeBuf s.slotIndex v).shift = s.buf.get s.slotIndex ∧
      (t.writeBuf s.slotIndex v).buf.get s.slotIndex = v ∧ Latches (t.writeBuf s.slotIndex v).buf s.slotIndex v)

/-- O51. R186: every order of the writes left is admitted. For every order of them there are choices with which, after each
number `k` of write steps, the writes still left are exactly those after the first `k` of the order, and (before the last)
everything else is as the first `k` writes leave it; after the last one the RESET has completed besides (log 10). As the
writes of a RESET are all different (O38), the list left says at each `k` which write was done. -/
def Obligations.EveryResetOrderIsAdmitted : Prop :=
  ∀ (s : State) (order : List ResetWrite), s.resetSeq ≠ [] → order.Perm s.resetSeq →
    ∃ picks : List Nat, picks.length = order.length ∧
      (∀ k u, k ≤ order.length → u = (picks.take k).foldl State.resetStep s →
        u.resetSeq.Perm (order.drop k) ∧
        (k < order.length → u = { afterWrites (order.take k) s with resetSeq := u.resetSeq })) ∧
      picks.foldl State.resetStep s =
        ({ afterWrites order s with resetSeq := [] } : State).complete .reset [0xA2]

/-- O52. R186, R179: whatever ticks and bytes fall between the writes, a RESET that is started and not cut off by a
power-on reset leaves the shared state at its defaults, sends 0xA2 once, and lets every byte received wait. -/
def Obligations.ResetCompletesUnderAnyInterleaving : Prop :=
  ∀ (n : Nat) (s : State), s.legal = true → s.resetSeq = ResetWrite.all → n ≤ s.inputs.length →
    (∀ m ∈ s.inputs.take n, m.rst = false) → (s.inputs.take n).countP (fun m => !m.tick) = 516 →
    ∃ t, run n s = .next t ∧ (∀ a, a ≤ 512 → t.buf.get a = 0x00) ∧ t.blackout = 0x01 ∧ t.last = 512 ∧
      t.txen = s.params.txenReset ∧ t.lastnop = false ∧ t.resp = s.resp ++ [0xA2] ∧ t.resetSeq = [] ∧
      t.dec = s.dec ∧ t.rxQueue = s.rxQueue ++ (s.inputs.take n).flatMap (fun m => m.rx.toList)

/-! ### The waveform -/

/-- O53. R154: the ten intervals of a slot, whatever the host does between its ticks: the start bit low, data bit `j` at the
level of bit `j` of the byte latched, with the mask read one tick before, the stop bits high. -/
def Obligations.SlotWaveformUnderHostActivity : Prop :=
  ∀ b a : Nat → State, SlotRun b a →
    intervalOf (b 0) (a 0) = ⟨false, (b 0).params.durBit, .startBit⟩ ∧
    (∀ j, j < 8 → intervalOf (b (j + 1)) (a (j + 1)) =
      dataInterval (b 0).params ((b 0).buf.get (b 0).slotIndex) (b j).blackout j) ∧
    intervalOf (b 9) (a 9) = ⟨true, (b 0).params.durStop, .stopBits⟩

/-- O54. R155: with the mask 0x00 at every level computation of a slot, its intervals are those of a slot carrying 0x00, and
its ticks leave `BUF` as it is. -/
def Obligations.BlackedOutSlotIsAllLow : Prop :=
  ∀ b a : Nat → State, SlotRun b a → (∀ j, j < 8 → (b j).blackout = 0x00) →
    (∀ k, k < 10 → (a k).buf = (b k).buf) ∧ (a 0).pin = false ∧ (∀ j, j < 8 → (a (j + 1)).pin = false) ∧
    (List.range 10).map (fun k => intervalOf (b k) (a k)) = slotWave (b 0).params 0x00 0x01

/-- O55. R151, R152: from the head of a frame, while only ticks come and `TXEN` is 1, the next `2 + 10 * (N + 1)` ticks are
one Break, one MarkAfterBreak and the slots 0..N, `N` being `FLAST`, and the frame after that starts with the `LAST` of
now. -/
def Obligations.FrameWaveformAndLength : Prop :=
  ∀ s : State, s.Inv → s.phase = .brk → s.remain = s.flast → s.txen = true → OnlyTicks (frameTicks s.flast.toNat) s →
    waveform (frameTicks s.flast.toNat) s = frameWave s.params s.buf s.blackout s.flast.toNat ∧
    ∃ t, run (frameTicks s.flast.toNat) s = .next t ∧ t.phase = .brk ∧ t.remain = s.last ∧ t.flast = s.last ∧
      t.pend = false ∧ SameHost s t

/-- O56. R152, R153: a frame's number of intervals, the sum of its reload values, its duration under any `INTERVAL`, and
the sum with the default parameters. -/
def Obligations.FrameReloadSum : Prop :=
  ∀ (p : Params) (buf : Memory) (m : Byte) (n : Nat) (interval : Byte → Nat),
    (frameWave p buf m n).length = frameTicks n ∧
    reloadSum (frameWave p buf m n) =
      p.durBreak.toNat + p.durMab.toNat + (n + 1) * (9 * p.durBit.toNat + p.durStop.toNat) ∧
    duration interval (frameWave p buf m n) =
      interval p.durBreak + interval p.durMab + (n + 1) * (9 * interval p.durBit + interval p.durStop) ∧
    reloadSum (frameWave Params.default buf m n) = 240 + 2480 * (n + 1)

/-- O57. R157: with `TXEN = 0` and only ticks, the generator is Idle after at most 12 ticks, at most 10 if it is within a
slot, the pin then high from the stop bits; and every tick from then on is an Idle step with level 1 and reload
`DUR_IDLE`. -/
def Obligations.HaltWithinTwelveTicks : Prop :=
  ∀ s : State, s.Inv → s.txen = false →
    ∃ n t, n ≤ 12 ∧ (s.phase ≠ .brk ∧ s.phase ≠ .markAfterBreak → n ≤ 10) ∧ runTicks n s = .next t ∧
      t.phase = .idle ∧ (s.phase ≠ .idle → t.pin = true) ∧
      ∀ k, ∃ u, runTicks (k + 1) t = .next u ∧ u.phase = .idle ∧ u.pin = true ∧ u.reload = s.params.durIdle

/-- O58. R158: with `TXEN = 1` in Idle, the next tick is an Idle step to StartBit, and the one after it the start bit of the
slot with index `FLAST - REMAIN`; no Break is inserted. -/
def Obligations.ResumeStartsAtTheSlotWithoutBreak : Prop :=
  ∀ s : State, s.Inv → s.phase = .idle → s.txen = true →
    ∃ t u, gStep s = .next t ∧ intervalOf s t = ⟨true, s.params.durIdle, .idle⟩ ∧
      gStep t = .next u ∧ intervalOf t u = ⟨false, s.params.durBit, .startBit⟩ ∧
      u.phase = .dataBits ∧ u.shift = s.buf.get (s.flast.toNat - s.remain.toNat) ∧
      u.remain = s.remain ∧ u.flast = s.flast

/-- O59. R141, R224: in the timed waveform the levels are those of the untimed one, whatever the delays; each level lasts
to the start of the next; and without delays the whole lasts the duration of its intervals. -/
def Obligations.DelaysChangeTimesOnly : Prop :=
  ∀ (interval : Byte → Nat) (e d : Nat → Nat) (k t : Nat) (ws : List WaveInterval),
    (timedWaveform interval e d k t ws).map TimedLevel.level = ws.map WaveInterval.level ∧
    (∀ i x y, (timedWaveform interval e d k t ws)[i]? = some x → (timedWaveform interval e d k t ws)[i + 1]? = some y →
      x.stop = y.start) ∧
    (∀ x, (timedWaveform interval (fun _ => 0) (fun _ => 0) k t ws).getLast? = some x →
      x.stop = t + duration interval ws)

/-- O60. R277: the literal reading `INTERVAL(v) = v` meets the timing budget at no `T_COUNT`, for any tolerance below 1141 us
(the tolerance is the model's, log 18), while some `INTERVAL` meets it. -/
def Obligations.LiteralIntervalsMissTheBudget : Prop :=
  (∀ tCount tol : Rat, tol < 1141 → ¬Conformant Params.default (fun v => v.toNat) tCount tol) ∧
  ∃ (interval : Byte → Nat) (tCount : Rat), Conformant Params.default interval tCount (1 / 2)
end

