-- ==== Sys2Proof/Laws/Decode.lean ====
section
/-! SUPPORT. What the tables and the byte-by-byte decoder do, said once. -/

namespace Sys2Proof

@[simp] theorem Opcode.ofByte_code (op : Opcode) : Opcode.ofByte op.code = some op := by cases op <;> rfl

/-- A byte is an opcode only as that opcode's own code. -/
theorem Opcode.code_of_ofByte {b : Byte} {op : Opcode} (h : Opcode.ofByte b = some op) : op.code = b := by
  have := List.find?_some h
  simpa using this

theorem fromF0_isSome (i : Instr) (ps : List Byte) : (fromF0 i ps).isSome = true ↔ ps.length = 0 := by
  cases ps <;> simp [fromF0]

theorem fromF1_isSome (f : Byte → Instr) (ps : List Byte) : (fromF1 f ps).isSome = true ↔ ps.length = 1 := by
  rcases ps with _ | ⟨p, _ | ⟨q, ps⟩⟩ <;> simp [fromF1]

theorem fromF2_isSome (f : Byte → Byte → Instr) (ps : List Byte) : (fromF2 f ps).isSome = true ↔ ps.length = 2 := by
  rcases ps with _ | ⟨p, _ | ⟨q, _ | ⟨r, ps⟩⟩⟩ <;> simp [fromF2]

theorem fromF0_eq_some {i j : Instr} {ps : List Byte} (h : fromF0 i ps = some j) : ps = [] ∧ j = i := by
  cases ps <;> simp_all [fromF0]

theorem fromF1_eq_some {f : Byte → Instr} {j : Instr} {ps : List Byte} (h : fromF1 f ps = some j) :
    ∃ p, ps = [p] ∧ j = f p := by
  rcases ps with _ | ⟨p, _ | ⟨q, ps⟩⟩ <;> simp_all [fromF1]

theorem fromF2_eq_some {f : Byte → Byte → Instr} {j : Instr} {ps : List Byte} (h : fromF2 f ps = some j) :
    ∃ idx val, ps = [idx, val] ∧ j = f idx val := by
  rcases ps with _ | ⟨p, _ | ⟨q, _ | ⟨r, ps⟩⟩⟩ <;> simp_all [fromF2]

/-- A command is assembled from exactly as many parameters as its opcode has (R170). -/
theorem assemble_isSome_iff (op : Opcode) (ps : List Byte) : (assemble op ps).isSome = true ↔ ps.length = op.arity := by
  cases op <;> first | exact fromF0_isSome _ ps | exact fromF1_isSome _ ps | exact fromF2_isSome _ ps

theorem assemble_none_iff (op : Opcode) (ps : List Byte) : assemble op ps = none ↔ ps.length ≠ op.arity := by
  have h := assemble_isSome_iff op ps
  cases ha : assemble op ps <;> simp [ha] at h ⊢ <;> simpa using h

/-- An assembled command is encoded as its opcode's byte and its parameters, in order (R91). -/
theorem encodeCommand_of_assemble {op : Opcode} {ps : List Byte} {i : Instr} (h : assemble op ps = some i) :
    encodeCommand i = op.code :: ps ∧ i.isCommand = true := by
  cases op <;> simp only [assemble] at h <;>
    first
      | (obtain ⟨rfl, rfl⟩ := fromF0_eq_some h; exact ⟨rfl, rfl⟩)
      | (obtain ⟨p, rfl, rfl⟩ := fromF1_eq_some h; exact ⟨rfl, rfl⟩)
      | (obtain ⟨idx, val, rfl, rfl⟩ := fromF2_eq_some h; exact ⟨rfl, rfl⟩)

/-- Every command is assembled from some opcode and its parameters. -/
theorem exists_assemble {i : Instr} (h : i.isCommand = true) :
    ∃ op ps, assemble op ps = some i ∧ encodeCommand i = op.code :: ps := by
  cases i <;> simp [Instr.isCommand] at h
  · exact ⟨.reset, [], rfl, rfl⟩
  · exact ⟨.versionRequest, [], rfl, rfl⟩
  · exact ⟨.noOperation, [], rfl, rfl⟩
  · exact ⟨.setTxStartCode, [_], rfl, rfl⟩
  · exact ⟨.turnTxOn, [], rfl, rfl⟩
  · exact ⟨.turnTxOff, [], rfl, rfl⟩
  · exact ⟨.setDmxChannelValueLow, [_, _], rfl, rfl⟩
  · exact ⟨.setDmxChannelValueHigh, [_, _], rfl, rfl⟩
  · exact ⟨.turnOnBlackout, [], rfl, rfl⟩
  · exact ⟨.turnOffBlackout, [], rfl, rfl⟩
  · exact ⟨.setLastTxCodeLow, [_], rfl, rfl⟩
  · exact ⟨.setLastTxCodeHigh, [_], rfl, rfl⟩

/-- Everything a decode step can do (R170). -/
theorem Dec.feed_cases (d : Dec) (b : Byte) :
    (∃ i, d.feed b = (.awaitOpcode, some (.command i)) ∧ i.isCommand = true ∧ encodeCommand i = d.bytes ++ [b]) ∨
    (d = .awaitOpcode ∧ Opcode.ofByte b = none ∧ d.feed b = (.awaitOpcode, some (.discarded b))) ∨
    (∃ op ps, d.feed b = (.awaitParams op ps, none) ∧ op.code :: ps = d.bytes ++ [b] ∧ ps.length ≠ op.arity ∧
      (d = .awaitOpcode → ps = []) ∧ (∀ qs, d = .awaitParams op qs → ps = qs ++ [b])) := by
  cases d with
  | awaitOpcode =>
    cases ho : Opcode.ofByte b with
    | none => exact .inr (.inl ⟨rfl, rfl, by simp [Dec.feed, ho]⟩)
    | some op =>
      have hc := Opcode.code_of_ofByte ho
      cases ha : assemble op [] with
      | some i =>
        have he := encodeCommand_of_assemble ha
        exact .inl ⟨i, by simp [Dec.feed, ho, ha], he.2, by simp [he.1, hc, Dec.bytes]⟩
      | none =>
        exact .inr (.inr ⟨op, [], by simp [Dec.feed, ho, ha], by simp [hc, Dec.bytes], (assemble_none_iff op []).mp ha,
          fun _ => rfl, fun qs h => by cases h⟩)
  | awaitParams op ps =>
    cases ha : assemble op (ps ++ [b]) with
    | some i =>
      have he := encodeCommand_of_assemble ha
      exact .inl ⟨i, by simp [Dec.feed, ha], he.2, by simp [he.1, Dec.bytes]⟩
    | none =>
      exact .inr (.inr ⟨op, ps ++ [b], by simp [Dec.feed, ha], by simp [Dec.bytes], (assemble_none_iff _ _).mp ha,
        (fun h => by cases h), fun qs h => by cases h; rfl⟩)

/-- A decode step keeps the decoder's state well formed (R33). -/
theorem Dec.feed_wellFormed {d : Dec} (b : Byte) (h : d.wellFormed = true) : (d.feed b).1.wellFormed = true := by
  rcases Dec.feed_cases d b with ⟨i, hf, -⟩ | ⟨-, -, hf⟩ | ⟨op, ps, hf, hb, hne, ho, hp⟩
  · rw [hf]; rfl
  · rw [hf]; rfl
  · rw [hf]
    cases d with
    | awaitOpcode =>
      have := ho rfl
      subst this
      simp only [Dec.wellFormed, decide_eq_true_eq]
      simp only [List.length_nil, ne_eq] at hne ⊢
      omega
    | awaitParams op' qs =>
      simp only [Dec.wellFormed, decide_eq_true_eq] at h ⊢
      simp only [Dec.bytes, List.cons_append, List.cons.injEq] at hb
      have hop : op = op' := by
        have := congrArg Opcode.ofByte hb.1
        simpa using this
      subst hop
      rw [hb.2] at hne ⊢
      simp only [List.length_append, List.length_cons, List.length_nil] at hne ⊢
      omega

@[simp] theorem Phase.ofCode_code (p : Phase) : Phase.ofCode p.code = some p := by cases p <;> rfl

/-- A tick selects a tick case, never a command (R90). -/
theorem tickInstr_not_command (p : Phase) (b : BitVec 3) : (tickInstr p b).isCommand = false := by
  cases p <;> simp only [tickInstr] <;> (try split) <;> rfl

end Sys2Proof
end

