-- ==== Sys2Proof/Laws/Memory.lean ====
section
/-! SUPPORT. The laws of the Channel Buffer: a read after a write, and the canonical form that every operation keeps. -/

namespace Sys2Proof.Machine

@[simp] theorem Memory.get_nil (a : Nat) : Memory.get [] a = 0 := rfl

theorem Memory.get_cons (k : Nat) (w : Byte) (m : Memory) (a : Nat) :
    Memory.get ((k, w) :: m) a = if a = k then w else Memory.get m a := rfl

theorem Memory.mem_erase {m : Memory} {a : Nat} {c : Host.Cell} : c ∈ m.erase a ↔ c ∈ m ∧ c.1 ≠ a := by
  simp [Memory.erase]

theorem Memory.get_erase_same (m : Memory) (a : Nat) : (m.erase a).get a = 0 := by
  induction m with
  | nil => rfl
  | cons c m ih =>
    by_cases h : c.1 = a
    · simpa [Memory.erase, h] using ih
    · simpa [Memory.erase, h, Memory.get, Ne.symm h] using ih

theorem Memory.get_erase_other (m : Memory) {a b : Nat} (h : b ≠ a) : (m.erase a).get b = m.get b := by
  induction m with
  | nil => rfl
  | cons c m ih =>
    by_cases hk : c.1 = a
    · simpa [Memory.erase, hk, Memory.get, h] using ih
    · simp only [Memory.erase, List.filter_cons, bne_iff_ne, ne_eq, hk, not_false_eq_true, if_true, Memory.get] at ih ⊢
      rw [ih]

theorem Memory.get_insert_same (m : Memory) (a : Nat) (v : Byte) (h : ∀ c ∈ m, c.1 ≠ a) : (m.insert a v).get a = v := by
  induction m with
  | nil => simp [Memory.insert, Memory.get]
  | cons c m ih =>
    have hc : a ≠ c.1 := fun e => h c (by simp) e.symm
    have := ih (fun x hx => h x (by simp [hx]))
    unfold Memory.insert
    split <;> simp [Memory.get, hc, this]

theorem Memory.get_insert_other (m : Memory) {a b : Nat} (v : Byte) (h : b ≠ a) : (m.insert a v).get b = m.get b := by
  induction m with
  | nil => simp [Memory.insert, Memory.get, h]
  | cons c m ih =>
    unfold Memory.insert
    split
    · simp [Memory.get, h]
    · simp [Memory.get, ih]

/-- A read of the entry just written gives the value written. -/
@[simp] theorem Memory.get_set_same (m : Memory) (a : Nat) (v : Byte) : (m.set a v).get a = v := by
  unfold Memory.set
  split
  · next h => rw [h, Memory.get_erase_same]
  · exact Memory.get_insert_same _ a v (fun c hc => (Memory.mem_erase.mp hc).2)

/-- A write leaves every other entry alone. -/
theorem Memory.get_set_other (m : Memory) {a b : Nat} (v : Byte) (h : b ≠ a) : (m.set a v).get b = m.get b := by
  unfold Memory.set
  split
  · exact Memory.get_erase_other m h
  · rw [Memory.get_insert_other _ v h, Memory.get_erase_other m h]

theorem Memory.get_set (m : Memory) (a b : Nat) (v : Byte) : (m.set a v).get b = if b = a then v else m.get b := by
  by_cases h : b = a
  · simp [h]
  · simp [h, Memory.get_set_other m v h]

theorem Memory.erase_erase (m : Memory) (a : Nat) : (m.erase a).erase a = m.erase a := by
  simp [Memory.erase]

theorem Memory.erase_of_absent (m : Memory) {a : Nat} (h : ∀ c ∈ m, c.1 ≠ a) : m.erase a = m := by
  simpa [Memory.erase] using fun x y hxy => h (x, y) hxy

theorem Memory.erase_head {m : Memory} (a : Nat) (v : Byte) (h : ∀ c ∈ m, c.1 ≠ a) :
    Memory.erase ((a, v) :: m) a = m := by
  have e : Memory.erase ((a, v) :: m) a = m.erase a := by simp [Memory.erase]
  rw [e, Memory.erase_of_absent m h]

theorem Memory.erase_insert (m : Memory) (a : Nat) (v : Byte) (h : ∀ c ∈ m, c.1 ≠ a) : (m.insert a v).erase a = m := by
  induction m with
  | nil => simp [Memory.insert, Memory.erase]
  | cons c m ih =>
    have hc : c.1 ≠ a := h c (by simp)
    have hm : ∀ x ∈ m, x.1 ≠ a := fun x hx => h x (by simp [hx])
    unfold Memory.insert
    split
    · exact Memory.erase_head a v h
    · have := ih hm
      simp [Memory.erase, hc] at this ⊢
      exact this

theorem Memory.erase_set (m : Memory) (a : Nat) (v : Byte) : (m.set a v).erase a = m.erase a := by
  unfold Memory.set
  split
  · exact Memory.erase_erase m a
  · exact Memory.erase_insert _ a v (fun c hc => (Memory.mem_erase.mp hc).2)

/-- A later write to the same entry wins. -/
theorem Memory.set_set (m : Memory) (a : Nat) (v w : Byte) : (m.set a v).set a w = m.set a w := by
  have e := Memory.erase_set m a v
  show (if w = 0 then (m.set a v).erase a else ((m.set a v).erase a).insert a w) = m.set a w
  rw [e]
  rfl

/-! ### The canonical form -/

theorem Memory.wfFrom_cons {lo k : Nat} {w : Byte} {m : Memory} :
    Memory.wfFrom lo ((k, w) :: m) = true ↔ lo ≤ k ∧ k < bufSize ∧ w ≠ 0 ∧ Memory.wfFrom (k + 1) m = true := by
  simp [Memory.wfFrom, and_assoc]

theorem Memory.wfFrom_mono {lo lo' : Nat} {m : Memory} (h : Memory.wfFrom lo m = true) (hle : lo' ≤ lo) :
    Memory.wfFrom lo' m = true := by
  cases m with
  | nil => rfl
  | cons c m =>
    obtain ⟨k, w⟩ := c
    rw [Memory.wfFrom_cons] at h ⊢
    exact ⟨Nat.le_trans hle h.1, h.2⟩

theorem Memory.wfFrom_erase {lo : Nat} {m : Memory} (a : Nat) (h : Memory.wfFrom lo m = true) :
    Memory.wfFrom lo (m.erase a) = true := by
  induction m generalizing lo with
  | nil => rfl
  | cons c m ih =>
    obtain ⟨k, w⟩ := c
    rw [Memory.wfFrom_cons] at h
    by_cases hk : k = a
    · have := Memory.wfFrom_mono (ih h.2.2.2) (Nat.le_succ_of_le h.1)
      simpa [Memory.erase, hk] using this
    · have := ih h.2.2.2
      have e : Memory.erase ((k, w) :: m) a = (k, w) :: Memory.erase m a := by simp [Memory.erase, hk]
      rw [e, Memory.wfFrom_cons]
      exact ⟨h.1, h.2.1, h.2.2.1, this⟩

theorem Memory.wfFrom_insert {lo a : Nat} {m : Memory} {v : Byte} (h : Memory.wfFrom lo m = true) (hlo : lo ≤ a)
    (ha : a < bufSize) (hv : v ≠ 0) (hm : ∀ c ∈ m, c.1 ≠ a) : Memory.wfFrom lo (m.insert a v) = true := by
  induction m generalizing lo with
  | nil => simpa [Memory.insert, Memory.wfFrom] using ⟨⟨hlo, ha⟩, hv⟩
  | cons c m ih =>
    obtain ⟨k, w⟩ := c
    have hk : k ≠ a := hm (k, w) (by simp)
    rw [Memory.wfFrom_cons] at h
    unfold Memory.insert
    split
    · next hlt =>
      rw [Memory.wfFrom_cons, Memory.wfFrom_cons]
      exact ⟨hlo, ha, hv, hlt, h.2⟩
    · next hge =>
      rw [Memory.wfFrom_cons]
      exact ⟨h.1, h.2.1, h.2.2.1, ih h.2.2.2 (by omega) (fun x hx => hm x (by simp [hx]))⟩

/-- Every write of an entry that exists keeps the canonical form. -/
theorem Memory.wf_set {m : Memory} {a : Nat} (v : Byte) (h : m.wf = true) (ha : a < bufSize) : (m.set a v).wf = true := by
  unfold Memory.set
  split
  · exact Memory.wfFrom_erase a h
  · next hv =>
    exact Memory.wfFrom_insert (Memory.wfFrom_erase a h) (Nat.zero_le a) ha hv
      (fun c hc => (Memory.mem_erase.mp hc).2)

theorem Memory.load_of_lt {a : Nat} (m : Memory) (h : a < bufSize) : m.load a = some (m.get a) := by
  simp [Memory.load, h]

theorem Memory.load_of_ge {a : Nat} (m : Memory) (h : bufSize ≤ a) : m.load a = none := by
  simp [Memory.load, Nat.not_lt.mpr h]

end Sys2Proof.Machine
end

