-- ==== Sys2Proof/Laws/State.lean ====
section
/-! SUPPORT. One lemma per field for each update of State, so that no later proof unfolds a record update. -/

namespace Sys2Proof.Machine

/-! ### `State.writeBuf` -/

@[simp] theorem State.writeBuf_buf (s : State) (a : Nat) (v : Byte) : (s.writeBuf a v).buf = s.buf.set a v := rfl
@[simp] theorem State.writeBuf_blackout (s : State) (a : Nat) (v : Byte) : (s.writeBuf a v).blackout = s.blackout := rfl
@[simp] theorem State.writeBuf_last (s : State) (a : Nat) (v : Byte) : (s.writeBuf a v).last = s.last := rfl
@[simp] theorem State.writeBuf_txen (s : State) (a : Nat) (v : Byte) : (s.writeBuf a v).txen = s.txen := rfl
@[simp] theorem State.writeBuf_phase (s : State) (a : Nat) (v : Byte) : (s.writeBuf a v).phase = s.phase := rfl
@[simp] theorem State.writeBuf_bitpos (s : State) (a : Nat) (v : Byte) : (s.writeBuf a v).bitpos = s.bitpos := rfl
@[simp] theorem State.writeBuf_shift (s : State) (a : Nat) (v : Byte) : (s.writeBuf a v).shift = s.shift := rfl
@[simp] theorem State.writeBuf_remain (s : State) (a : Nat) (v : Byte) : (s.writeBuf a v).remain = s.remain := rfl
@[simp] theorem State.writeBuf_flast (s : State) (a : Nat) (v : Byte) : (s.writeBuf a v).flast = s.flast := rfl
@[simp] theorem State.writeBuf_pend (s : State) (a : Nat) (v : Byte) : (s.writeBuf a v).pend = s.pend := rfl
@[simp] theorem State.writeBuf_pin (s : State) (a : Nat) (v : Byte) : (s.writeBuf a v).pin = s.pin := rfl
@[simp] theorem State.writeBuf_reload (s : State) (a : Nat) (v : Byte) : (s.writeBuf a v).reload = s.reload := rfl
@[simp] theorem State.writeBuf_dec (s : State) (a : Nat) (v : Byte) : (s.writeBuf a v).dec = s.dec := rfl
@[simp] theorem State.writeBuf_lastnop (s : State) (a : Nat) (v : Byte) : (s.writeBuf a v).lastnop = s.lastnop := rfl
@[simp] theorem State.writeBuf_resp (s : State) (a : Nat) (v : Byte) : (s.writeBuf a v).resp = s.resp := rfl
@[simp] theorem State.writeBuf_resetSeq (s : State) (a : Nat) (v : Byte) : (s.writeBuf a v).resetSeq = s.resetSeq := rfl
@[simp] theorem State.writeBuf_rxQueue (s : State) (a : Nat) (v : Byte) : (s.writeBuf a v).rxQueue = s.rxQueue := rfl
@[simp] theorem State.writeBuf_inputs (s : State) (a : Nat) (v : Byte) : (s.writeBuf a v).inputs = s.inputs := rfl
@[simp] theorem State.writeBuf_draws (s : State) (a : Nat) (v : Byte) : (s.writeBuf a v).draws = s.draws := rfl
@[simp] theorem State.writeBuf_params (s : State) (a : Nat) (v : Byte) : (s.writeBuf a v).params = s.params := rfl

/-! ### `State.complete` -/

@[simp] theorem State.complete_buf (s : State) (op : Opcode) (r : List Byte) : (s.complete op r).buf = s.buf := rfl
@[simp] theorem State.complete_blackout (s : State) (op : Opcode) (r : List Byte) : (s.complete op r).blackout = s.blackout := rfl
@[simp] theorem State.complete_last (s : State) (op : Opcode) (r : List Byte) : (s.complete op r).last = s.last := rfl
@[simp] theorem State.complete_txen (s : State) (op : Opcode) (r : List Byte) : (s.complete op r).txen = s.txen := rfl
@[simp] theorem State.complete_phase (s : State) (op : Opcode) (r : List Byte) : (s.complete op r).phase = s.phase := rfl
@[simp] theorem State.complete_bitpos (s : State) (op : Opcode) (r : List Byte) : (s.complete op r).bitpos = s.bitpos := rfl
@[simp] theorem State.complete_shift (s : State) (op : Opcode) (r : List Byte) : (s.complete op r).shift = s.shift := rfl
@[simp] theorem State.complete_remain (s : State) (op : Opcode) (r : List Byte) : (s.complete op r).remain = s.remain := rfl
@[simp] theorem State.complete_flast (s : State) (op : Opcode) (r : List Byte) : (s.complete op r).flast = s.flast := rfl
@[simp] theorem State.complete_pend (s : State) (op : Opcode) (r : List Byte) : (s.complete op r).pend = s.pend := rfl
@[simp] theorem State.complete_pin (s : State) (op : Opcode) (r : List Byte) : (s.complete op r).pin = s.pin := rfl
@[simp] theorem State.complete_reload (s : State) (op : Opcode) (r : List Byte) : (s.complete op r).reload = s.reload := rfl
@[simp] theorem State.complete_dec (s : State) (op : Opcode) (r : List Byte) : (s.complete op r).dec = s.dec := rfl
@[simp] theorem State.complete_lastnop (s : State) (op : Opcode) (r : List Byte) : (s.complete op r).lastnop = lastnopAfter op := rfl
@[simp] theorem State.complete_resp (s : State) (op : Opcode) (r : List Byte) : (s.complete op r).resp = s.resp ++ r := rfl
@[simp] theorem State.complete_resetSeq (s : State) (op : Opcode) (r : List Byte) : (s.complete op r).resetSeq = s.resetSeq := rfl
@[simp] theorem State.complete_rxQueue (s : State) (op : Opcode) (r : List Byte) : (s.complete op r).rxQueue = s.rxQueue := rfl
@[simp] theorem State.complete_inputs (s : State) (op : Opcode) (r : List Byte) : (s.complete op r).inputs = s.inputs := rfl
@[simp] theorem State.complete_draws (s : State) (op : Opcode) (r : List Byte) : (s.complete op r).draws = s.draws := rfl
@[simp] theorem State.complete_params (s : State) (op : Opcode) (r : List Byte) : (s.complete op r).params = s.params := rfl

/-! ### `State.beginInterval` -/

@[simp] theorem State.beginInterval_buf (s : State) : (s.beginInterval).buf = s.buf := rfl
@[simp] theorem State.beginInterval_blackout (s : State) : (s.beginInterval).blackout = s.blackout := rfl
@[simp] theorem State.beginInterval_last (s : State) : (s.beginInterval).last = s.last := rfl
@[simp] theorem State.beginInterval_txen (s : State) : (s.beginInterval).txen = s.txen := rfl
@[simp] theorem State.beginInterval_phase (s : State) : (s.beginInterval).phase = s.phase := rfl
@[simp] theorem State.beginInterval_bitpos (s : State) : (s.beginInterval).bitpos = s.bitpos := rfl
@[simp] theorem State.beginInterval_shift (s : State) : (s.beginInterval).shift = s.shift := rfl
@[simp] theorem State.beginInterval_remain (s : State) : (s.beginInterval).remain = s.remain := rfl
@[simp] theorem State.beginInterval_flast (s : State) : (s.beginInterval).flast = s.flast := rfl
@[simp] theorem State.beginInterval_pend (s : State) : (s.beginInterval).pend = s.pend := rfl
@[simp] theorem State.beginInterval_pin (s : State) : (s.beginInterval).pin = s.pend := rfl
@[simp] theorem State.beginInterval_reload (s : State) : (s.beginInterval).reload = reloadFor s.params s.phase := rfl
@[simp] theorem State.beginInterval_dec (s : State) : (s.beginInterval).dec = s.dec := rfl
@[simp] theorem State.beginInterval_lastnop (s : State) : (s.beginInterval).lastnop = s.lastnop := rfl
@[simp] theorem State.beginInterval_resp (s : State) : (s.beginInterval).resp = s.resp := rfl
@[simp] theorem State.beginInterval_resetSeq (s : State) : (s.beginInterval).resetSeq = s.resetSeq := rfl
@[simp] theorem State.beginInterval_rxQueue (s : State) : (s.beginInterval).rxQueue = s.rxQueue := rfl
@[simp] theorem State.beginInterval_inputs (s : State) : (s.beginInterval).inputs = s.inputs := rfl
@[simp] theorem State.beginInterval_draws (s : State) : (s.beginInterval).draws = s.draws := rfl
@[simp] theorem State.beginInterval_params (s : State) : (s.beginInterval).params = s.params := rfl

/-! ### `State.decideNext` -/

@[simp] theorem State.decideNext_buf (s : State) (p : Phase) (l : Level) : (s.decideNext p l).buf = s.buf := rfl
@[simp] theorem State.decideNext_blackout (s : State) (p : Phase) (l : Level) : (s.decideNext p l).blackout = s.blackout := rfl
@[simp] theorem State.decideNext_last (s : State) (p : Phase) (l : Level) : (s.decideNext p l).last = s.last := rfl
@[simp] theorem State.decideNext_txen (s : State) (p : Phase) (l : Level) : (s.decideNext p l).txen = s.txen := rfl
@[simp] theorem State.decideNext_phase (s : State) (p : Phase) (l : Level) : (s.decideNext p l).phase = p := rfl
@[simp] theorem State.decideNext_bitpos (s : State) (p : Phase) (l : Level) : (s.decideNext p l).bitpos = s.bitpos := rfl
@[simp] theorem State.decideNext_shift (s : State) (p : Phase) (l : Level) : (s.decideNext p l).shift = s.shift := rfl
@[simp] theorem State.decideNext_remain (s : State) (p : Phase) (l : Level) : (s.decideNext p l).remain = s.remain := rfl
@[simp] theorem State.decideNext_flast (s : State) (p : Phase) (l : Level) : (s.decideNext p l).flast = s.flast := rfl
@[simp] theorem State.decideNext_pend (s : State) (p : Phase) (l : Level) : (s.decideNext p l).pend = l := rfl
@[simp] theorem State.decideNext_pin (s : State) (p : Phase) (l : Level) : (s.decideNext p l).pin = s.pin := rfl
@[simp] theorem State.decideNext_reload (s : State) (p : Phase) (l : Level) : (s.decideNext p l).reload = s.reload := rfl
@[simp] theorem State.decideNext_dec (s : State) (p : Phase) (l : Level) : (s.decideNext p l).dec = s.dec := rfl
@[simp] theorem State.decideNext_lastnop (s : State) (p : Phase) (l : Level) : (s.decideNext p l).lastnop = s.lastnop := rfl
@[simp] theorem State.decideNext_resp (s : State) (p : Phase) (l : Level) : (s.decideNext p l).resp = s.resp := rfl
@[simp] theorem State.decideNext_resetSeq (s : State) (p : Phase) (l : Level) : (s.decideNext p l).resetSeq = s.resetSeq := rfl
@[simp] theorem State.decideNext_rxQueue (s : State) (p : Phase) (l : Level) : (s.decideNext p l).rxQueue = s.rxQueue := rfl
@[simp] theorem State.decideNext_inputs (s : State) (p : Phase) (l : Level) : (s.decideNext p l).inputs = s.inputs := rfl
@[simp] theorem State.decideNext_draws (s : State) (p : Phase) (l : Level) : (s.decideNext p l).draws = s.draws := rfl
@[simp] theorem State.decideNext_params (s : State) (p : Phase) (l : Level) : (s.decideNext p l).params = s.params := rfl

/-! ### `State.beginReset` -/

@[simp] theorem State.beginReset_buf (s : State) : (s.beginReset).buf = s.buf := rfl
@[simp] theorem State.beginReset_blackout (s : State) : (s.beginReset).blackout = s.blackout := rfl
@[simp] theorem State.beginReset_last (s : State) : (s.beginReset).last = s.last := rfl
@[simp] theorem State.beginReset_txen (s : State) : (s.beginReset).txen = s.txen := rfl
@[simp] theorem State.beginReset_phase (s : State) : (s.beginReset).phase = s.phase := rfl
@[simp] theorem State.beginReset_bitpos (s : State) : (s.beginReset).bitpos = s.bitpos := rfl
@[simp] theorem State.beginReset_shift (s : State) : (s.beginReset).shift = s.shift := rfl
@[simp] theorem State.beginReset_remain (s : State) : (s.beginReset).remain = s.remain := rfl
@[simp] theorem State.beginReset_flast (s : State) : (s.beginReset).flast = s.flast := rfl
@[simp] theorem State.beginReset_pend (s : State) : (s.beginReset).pend = s.pend := rfl
@[simp] theorem State.beginReset_pin (s : State) : (s.beginReset).pin = s.pin := rfl
@[simp] theorem State.beginReset_reload (s : State) : (s.beginReset).reload = s.reload := rfl
@[simp] theorem State.beginReset_dec (s : State) : (s.beginReset).dec = s.dec := rfl
@[simp] theorem State.beginReset_lastnop (s : State) : (s.beginReset).lastnop = s.lastnop := rfl
@[simp] theorem State.beginReset_resp (s : State) : (s.beginReset).resp = s.resp := rfl
@[simp] theorem State.beginReset_resetSeq (s : State) : (s.beginReset).resetSeq = ResetWrite.all := rfl
@[simp] theorem State.beginReset_rxQueue (s : State) : (s.beginReset).rxQueue = s.rxQueue := rfl
@[simp] theorem State.beginReset_inputs (s : State) : (s.beginReset).inputs = s.inputs := rfl
@[simp] theorem State.beginReset_draws (s : State) : (s.beginReset).draws = s.draws := rfl
@[simp] theorem State.beginReset_params (s : State) : (s.beginReset).params = s.params := rfl

/-! ### `State.advance` -/

@[simp] theorem State.advance_buf (s : State) : (s.advance).buf = s.buf := rfl
@[simp] theorem State.advance_blackout (s : State) : (s.advance).blackout = s.blackout := rfl
@[simp] theorem State.advance_last (s : State) : (s.advance).last = s.last := rfl
@[simp] theorem State.advance_txen (s : State) : (s.advance).txen = s.txen := rfl
@[simp] theorem State.advance_phase (s : State) : (s.advance).phase = s.phase := rfl
@[simp] theorem State.advance_bitpos (s : State) : (s.advance).bitpos = s.bitpos := rfl
@[simp] theorem State.advance_shift (s : State) : (s.advance).shift = s.shift := rfl
@[simp] theorem State.advance_remain (s : State) : (s.advance).remain = s.remain := rfl
@[simp] theorem State.advance_flast (s : State) : (s.advance).flast = s.flast := rfl
@[simp] theorem State.advance_pend (s : State) : (s.advance).pend = s.pend := rfl
@[simp] theorem State.advance_pin (s : State) : (s.advance).pin = s.pin := rfl
@[simp] theorem State.advance_reload (s : State) : (s.advance).reload = s.reload := rfl
@[simp] theorem State.advance_dec (s : State) : (s.advance).dec = s.dec := rfl
@[simp] theorem State.advance_lastnop (s : State) : (s.advance).lastnop = s.lastnop := rfl
@[simp] theorem State.advance_resp (s : State) : (s.advance).resp = s.resp := rfl
@[simp] theorem State.advance_resetSeq (s : State) : (s.advance).resetSeq = s.resetSeq := rfl
@[simp] theorem State.advance_rxQueue (s : State) : (s.advance).rxQueue = s.rxQueue := rfl
@[simp] theorem State.advance_inputs (s : State) : (s.advance).inputs = s.inputs.tail := rfl
@[simp] theorem State.advance_draws (s : State) : (s.advance).draws = s.draws + 1 := rfl
@[simp] theorem State.advance_params (s : State) : (s.advance).params = s.params := rfl

/-! ### `State.receive` -/

@[simp] theorem State.receive_buf (s : State) (rx : Option Byte) : (s.receive rx).buf = s.buf := rfl
@[simp] theorem State.receive_blackout (s : State) (rx : Option Byte) : (s.receive rx).blackout = s.blackout := rfl
@[simp] theorem State.receive_last (s : State) (rx : Option Byte) : (s.receive rx).last = s.last := rfl
@[simp] theorem State.receive_txen (s : State) (rx : Option Byte) : (s.receive rx).txen = s.txen := rfl
@[simp] theorem State.receive_phase (s : State) (rx : Option Byte) : (s.receive rx).phase = s.phase := rfl
@[simp] theorem State.receive_bitpos (s : State) (rx : Option Byte) : (s.receive rx).bitpos = s.bitpos := rfl
@[simp] theorem State.receive_shift (s : State) (rx : Option Byte) : (s.receive rx).shift = s.shift := rfl
@[simp] theorem State.receive_remain (s : State) (rx : Option Byte) : (s.receive rx).remain = s.remain := rfl
@[simp] theorem State.receive_flast (s : State) (rx : Option Byte) : (s.receive rx).flast = s.flast := rfl
@[simp] theorem State.receive_pend (s : State) (rx : Option Byte) : (s.receive rx).pend = s.pend := rfl
@[simp] theorem State.receive_pin (s : State) (rx : Option Byte) : (s.receive rx).pin = s.pin := rfl
@[simp] theorem State.receive_reload (s : State) (rx : Option Byte) : (s.receive rx).reload = s.reload := rfl
@[simp] theorem State.receive_dec (s : State) (rx : Option Byte) : (s.receive rx).dec = s.dec := rfl
@[simp] theorem State.receive_lastnop (s : State) (rx : Option Byte) : (s.receive rx).lastnop = s.lastnop := rfl
@[simp] theorem State.receive_resp (s : State) (rx : Option Byte) : (s.receive rx).resp = s.resp := rfl
@[simp] theorem State.receive_resetSeq (s : State) (rx : Option Byte) : (s.receive rx).resetSeq = s.resetSeq := rfl
@[simp] theorem State.receive_rxQueue (s : State) (rx : Option Byte) : (s.receive rx).rxQueue = s.rxQueue ++ rx.toList := rfl
@[simp] theorem State.receive_inputs (s : State) (rx : Option Byte) : (s.receive rx).inputs = s.inputs := rfl
@[simp] theorem State.receive_draws (s : State) (rx : Option Byte) : (s.receive rx).draws = s.draws := rfl
@[simp] theorem State.receive_params (s : State) (rx : Option Byte) : (s.receive rx).params = s.params := rfl

/-! ### `State.takeByte` -/

@[simp] theorem State.takeByte_buf (s : State) : (s.takeByte).buf = s.buf := rfl
@[simp] theorem State.takeByte_blackout (s : State) : (s.takeByte).blackout = s.blackout := rfl
@[simp] theorem State.takeByte_last (s : State) : (s.takeByte).last = s.last := rfl
@[simp] theorem State.takeByte_txen (s : State) : (s.takeByte).txen = s.txen := rfl
@[simp] theorem State.takeByte_phase (s : State) : (s.takeByte).phase = s.phase := rfl
@[simp] theorem State.takeByte_bitpos (s : State) : (s.takeByte).bitpos = s.bitpos := rfl
@[simp] theorem State.takeByte_shift (s : State) : (s.takeByte).shift = s.shift := rfl
@[simp] theorem State.takeByte_remain (s : State) : (s.takeByte).remain = s.remain := rfl
@[simp] theorem State.takeByte_flast (s : State) : (s.takeByte).flast = s.flast := rfl
@[simp] theorem State.takeByte_pend (s : State) : (s.takeByte).pend = s.pend := rfl
@[simp] theorem State.takeByte_pin (s : State) : (s.takeByte).pin = s.pin := rfl
@[simp] theorem State.takeByte_reload (s : State) : (s.takeByte).reload = s.reload := rfl
@[simp] theorem State.takeByte_dec (s : State) : (s.takeByte).dec = s.dec := rfl
@[simp] theorem State.takeByte_lastnop (s : State) : (s.takeByte).lastnop = s.lastnop := rfl
@[simp] theorem State.takeByte_resp (s : State) : (s.takeByte).resp = s.resp := rfl
@[simp] theorem State.takeByte_resetSeq (s : State) : (s.takeByte).resetSeq = s.resetSeq := rfl
@[simp] theorem State.takeByte_rxQueue (s : State) : (s.takeByte).rxQueue = s.rxQueue.tail := rfl
@[simp] theorem State.takeByte_inputs (s : State) : (s.takeByte).inputs = s.inputs := rfl
@[simp] theorem State.takeByte_draws (s : State) : (s.takeByte).draws = s.draws := rfl
@[simp] theorem State.takeByte_params (s : State) : (s.takeByte).params = s.params := rfl

end Sys2Proof.Machine
end

