-- ==== Sys2Proof/Laws/Ops.lean ====
section
/-! SUPPORT. What each shared operation can do, said once: the operands, the tick's frame and its cases, the commands, and
the RESET sequence. -/

namespace Sys2Proof.Machine

/-! ### Operands -/

theorem lowIndex_eq (idx : Byte) : lowIndex idx = idx.toNat + 1 := by
  have := idx.isLt
  have h1 : (1 : Word10).toNat = 1 := rfl
  simp only [lowIndex, zext10, BitVec.toNat_add, BitVec.toNat_setWidth, h1]
  omega

theorem highIndex_eq (idx : Byte) : highIndex idx = idx.toNat + 257 := by
  have := idx.isLt
  have h1 : (257 : Word10).toNat = 257 := rfl
  simp only [highIndex, zext10, BitVec.toNat_add, BitVec.toNat_setWidth, h1]
  omega

theorem lowLast_toNat (p : Byte) : (lowLast p).toNat = p.toNat + 1 := lowIndex_eq p

theorem highLast_toNat (p : Byte) : (highLast p).toNat = p.toNat + 257 := highIndex_eq p

theorem lowIndex_lt (idx : Byte) : lowIndex idx < bufSize := by
  have := idx.isLt
  rw [lowIndex_eq]
  unfold bufSize
  omega

theorem highIndex_lt (idx : Byte) : highIndex idx < bufSize := by
  have := idx.isLt
  rw [highIndex_eq]
  unfold bufSize
  omega

/-! ### Legal states -/

theorem State.legal_iff (s : State) : s.legal = true ↔
    1 ≤ s.last.toNat ∧ s.last.toNat ≤ 512 ∧ 1 ≤ s.flast.toNat ∧ s.flast.toNat ≤ 512 ∧
      s.remain.toNat ≤ s.flast.toNat := by
  simp [State.legal, and_assoc]

theorem State.slotIndex_lt {s : State} (h : s.legal = true) : s.slotIndex < bufSize := by
  have := (State.legal_iff s).mp h
  unfold State.slotIndex bufSize
  omega

/-! ### The tick -/

theorem tickCase_of_selected {c : Instr} {k : State → Result} {s : State} (h : tickInstr s.phase s.bitpos = c)
    (hl : s.legal = true) : tickCase c k s = k s.beginInterval := by simp [tickCase, h, hl]

/-- A tick case goes on only where it is selected and the state is legal. -/
theorem tickCase_next {c : Instr} {k : State → Result} {s t : State} (h : tickCase c k s = .next t) :
    tickInstr s.phase s.bitpos = c ∧ s.legal = true ∧ k s.beginInterval = .next t := by
  unfold tickCase at h
  split at h
  · split at h
    · exact ⟨‹_›, ‹_›, h⟩
    · cases h
  · cases h

/-- In a legal state the StartBit step always finds its entry (R45, R65). -/
theorem latchSlot_of_lt {t : State} (h : t.slotIndex < bufSize) :
    latchSlot t = .next ({ t with shift := t.buf.get t.slotIndex, bitpos := 0 }.decideNext .dataBits
      (level (t.buf.get t.slotIndex) 0 t.blackout)) := by
  simp [latchSlot, Memory.load_of_lt _ h]

/-- The state after a tick in a legal state, case by case (R122-R131). -/
def State.afterTick (s : State) : State :=
  match s.phase with
  | .brk => s.beginInterval.decideNext .markAfterBreak true
  | .markAfterBreak => s.beginInterval.decideNext .startBit false
  | .startBit =>
    { s.beginInterval with shift := s.buf.get s.slotIndex, bitpos := 0 }.decideNext .dataBits
      (level (s.buf.get s.slotIndex) 0 s.blackout)
  | .dataBits =>
    if s.bitpos.toNat < 7 then nextDataBit s.beginInterval else s.beginInterval.decideNext .stopBits true
  | .stopBits => endSlot s.beginInterval
  | .idle => idleNext s.beginInterval

/-- Everything a tick does in a legal state. -/
theorem gStep_of_legal {s : State} (h : s.legal = true) : gStep s = .next s.afterTick := by
  have hi : s.beginInterval.slotIndex = s.slotIndex := rfl
  have hlt : s.beginInterval.slotIndex < bufSize := State.slotIndex_lt h
  unfold gStep State.afterTick
  cases hp : s.phase with
  | brk =>
    show execTickBreak s = _
    rw [execTickBreak, tickCase_of_selected (by simp [hp, tickInstr]) h]
  | markAfterBreak =>
    show execTickMarkAfterBreak s = _
    rw [execTickMarkAfterBreak, tickCase_of_selected (by simp [hp, tickInstr]) h]
  | startBit =>
    show execTickStartBit s = _
    rw [execTickStartBit, tickCase_of_selected (by simp [hp, tickInstr]) h, latchSlot_of_lt hlt]
    rfl
  | dataBits =>
    by_cases hb : s.bitpos.toNat < 7
    · simp only [tickInstr, hb, if_true]
      show execTickDataBit s = _
      rw [execTickDataBit, tickCase_of_selected (by simp [hp, tickInstr, hb]) h]
    · simp only [tickInstr, hb, if_false]
      show execTickLastDataBit s = _
      rw [execTickLastDataBit, tickCase_of_selected (by simp [hp, tickInstr, hb]) h]
  | stopBits =>
    show execTickStopBits s = _
    rw [execTickStopBits, tickCase_of_selected (by simp [hp, tickInstr]) h]
  | idle =>
    show execTickIdle s = _
    rw [execTickIdle, tickCase_of_selected (by simp [hp, tickInstr]) h]

theorem nextSlot_eq (t : State) : nextSlot t =
    { t with
      remain := if t.remain = 0 then t.last else t.remain - 1
      flast := if t.remain = 0 then t.last else t.flast } := by
  unfold nextSlot
  split <;> rfl

/-- Part (c) of the StopBits step as one update (R130). -/
theorem endSlot_eq (t : State) : endSlot t =
    { t with
      remain := if t.remain = 0 then t.last else t.remain - 1
      flast := if t.remain = 0 then t.last else t.flast
      phase := if t.txen then phaseAfterSlot t else .idle
      pend := !t.txen } := by
  unfold endSlot
  rw [nextSlot_eq]
  split <;> simp_all [State.decideNext]

theorem idleNext_eq (t : State) : idleNext t =
    { t with phase := if t.txen then .startBit else .idle, pend := !t.txen } := by
  unfold idleNext
  split <;> simp_all [State.decideNext]

/-! ### Commands -/

/-- What a command's effect writes: nothing, one entry of `BUF`, or one of the three shared registers (R37, R66). -/
inductive HostEffect (s : State) : State → Prop where
  | nothing : HostEffect s s
  | entry (a : Nat) (v : Byte) (h : a < bufSize) : HostEffect s (s.writeBuf a v)
  | txen (b : Bool) : HostEffect s { s with txen := b }
  | mask (m : Byte) (h : m = blackoutOn ∨ m = blackoutOff) : HostEffect s { s with blackout := m }
  | last (n : Word10) (h : 1 ≤ n.toNat ∧ n.toNat ≤ 512) : HostEffect s { s with last := n }

/-- Everything a command can do: start RESET's writes, or complete with one host effect. -/
theorem exec_command {i : Instr} (h : i.isCommand = true) (s : State) :
    (i = .reset ∧ s.lastnop = true ∧ exec i s = .next s.beginReset) ∨
    ∃ u op r, HostEffect s u ∧ exec i s = .next (u.complete op r) := by
  have hl := fun p : Byte => lowLast_toNat p
  have hh := fun p : Byte => highLast_toNat p
  cases i <;> simp only [Instr.isCommand] at h <;> try exact absurd h (by decide)
  case reset =>
    by_cases hn : s.lastnop = true
    · exact .inl ⟨rfl, hn, by simp [exec, execReset, hn]⟩
    · exact .inr ⟨s, _, _, .nothing, by simp only [exec, execReset, hn]; rfl⟩
  case versionRequest => exact .inr ⟨s, _, _, .nothing, rfl⟩
  case noOperation => exact .inr ⟨s, _, _, .nothing, rfl⟩
  case setTxStartCode p => exact .inr ⟨_, _, _, .entry startCodeIndex p (by decide), rfl⟩
  case turnTxOn => exact .inr ⟨_, _, _, .txen true, rfl⟩
  case turnTxOff => exact .inr ⟨_, _, _, .txen false, rfl⟩
  case setDmxChannelValueLow idx val => exact .inr ⟨_, _, _, .entry _ val (lowIndex_lt idx), rfl⟩
  case setDmxChannelValueHigh idx val => exact .inr ⟨_, _, _, .entry _ val (highIndex_lt idx), rfl⟩
  case turnOnBlackout => exact .inr ⟨_, _, _, .mask _ (.inl rfl), rfl⟩
  case turnOffBlackout => exact .inr ⟨_, _, _, .mask _ (.inr rfl), rfl⟩
  case setLastTxCodeLow p =>
    have := p.isLt
    exact .inr ⟨_, _, _, .last (lowLast p) (by rw [hl]; omega), rfl⟩
  case setLastTxCodeHigh p =>
    have := p.isLt
    exact .inr ⟨_, _, _, .last (highLast p) (by rw [hh]; omega), rfl⟩

/-! ### The RESET sequence -/

/-- Each of RESET's writes is a host effect. -/
theorem ResetWrite.apply_effect (w : ResetWrite) (s : State) : HostEffect s (w.apply s) := by
  cases w with
  | buf i => exact .entry i.val 0 i.isLt
  | blackout => exact .mask _ (.inr rfl)
  | last => exact .last 512 (by decide)
  | txen => exact .txen s.params.txenReset

/-- A write of RESET leaves the list of writes left alone. -/
theorem ResetWrite.apply_resetSeq (w : ResetWrite) (s : State) : (w.apply s).resetSeq = s.resetSeq := by cases w <;> rfl

/-- A write of RESET does not read the list of writes left. -/
theorem ResetWrite.apply_setResetSeq (w : ResetWrite) (s : State) (ws : List ResetWrite) :
    w.apply { s with resetSeq := ws } = { w.apply s with resetSeq := ws } := by cases w <;> rfl

/-- Everything a step of a RESET in progress does: one write that is still to be done, and with the last one the completion. -/
theorem State.resetStep_cases {s : State} (h : s.resetSeq ≠ []) (pick : Nat) :
    ∃ k w, k < s.resetSeq.length ∧ k = pickIndex pick s.resetSeq.length ∧ s.resetSeq[k]? = some w ∧
      s.resetStep pick =
        if s.resetSeq.eraseIdx k = [] then (w.apply { s with resetSeq := s.resetSeq.eraseIdx k }).complete .reset [0xA2]
        else w.apply { s with resetSeq := s.resetSeq.eraseIdx k } := by
  have hpos : 0 < s.resetSeq.length := List.length_pos_iff.mpr h
  have hlt : pickIndex pick s.resetSeq.length < s.resetSeq.length := Nat.mod_lt _ hpos
  refine ⟨_, s.resetSeq[pickIndex pick s.resetSeq.length], hlt, rfl, List.getElem?_eq_getElem hlt, ?_⟩
  unfold State.resetStep
  rw [List.getElem?_eq_getElem hlt]

theorem State.resetStep_nil {s : State} (h : s.resetSeq = []) (pick : Nat) : s.resetStep pick = s := by
  simp [State.resetStep, h]

theorem ResetWrite.bufs_length (n : Nat) : (ResetWrite.bufs n).length = n := by
  induction n with
  | zero => rfl
  | succ n ih => simp [ResetWrite.bufs, ih]

theorem ResetWrite.mem_bufs {n : Nat} (h : n ≤ 513) (w : ResetWrite) :
    w ∈ ResetWrite.bufs n ↔ ∃ i : Fin 513, w = .buf i ∧ i.val < n := by
  induction n with
  | zero => simp [ResetWrite.bufs]
  | succ n ih =>
    have hn : (Fin.ofNat 513 n).val = n := Nat.mod_eq_of_lt h
    simp only [ResetWrite.bufs, List.mem_cons, ih (Nat.le_of_succ_le h)]
    constructor
    · rintro (rfl | ⟨i, rfl, hi⟩)
      · exact ⟨_, rfl, by omega⟩
      · exact ⟨i, rfl, by omega⟩
    · rintro ⟨i, rfl, hi⟩
      by_cases hin : i.val = n
      · exact .inl (congrArg ResetWrite.buf (Fin.ext (by omega)))
      · exact .inr ⟨i, rfl, by omega⟩

theorem ResetWrite.bufs_nodup {n : Nat} (h : n ≤ 513) : (ResetWrite.bufs n).Nodup := by
  induction n with
  | zero => exact List.nodup_nil
  | succ n ih =>
    have hn : (Fin.ofNat 513 n).val = n := Nat.mod_eq_of_lt h
    refine List.nodup_cons.mpr ⟨?_, ih (Nat.le_of_succ_le h)⟩
    rw [ResetWrite.mem_bufs (Nat.le_of_succ_le h)]
    rintro ⟨i, hi, hlt⟩
    cases hi
    omega

theorem ResetWrite.all_length : ResetWrite.all.length = 516 := by
  simp only [ResetWrite.all, List.length_cons, ResetWrite.bufs_length, bufSize]

theorem ResetWrite.mem_all (w : ResetWrite) : w ∈ ResetWrite.all := by
  cases w with
  | buf i =>
    have := (ResetWrite.mem_bufs (n := bufSize) (Nat.le_refl _) (.buf i)).mpr ⟨i, rfl, i.isLt⟩
    simp only [ResetWrite.all, List.mem_cons, this, or_true]
  | blackout => simp [ResetWrite.all]
  | last => simp [ResetWrite.all]
  | txen => simp [ResetWrite.all]

theorem ResetWrite.all_nodup : ResetWrite.all.Nodup := by
  have hm := fun w => ResetWrite.mem_bufs (n := bufSize) (Nat.le_refl _) w
  simp only [ResetWrite.all, List.nodup_cons, List.mem_cons, hm]
  exact ⟨by simp, by simp, by simp, ResetWrite.bufs_nodup (Nat.le_refl _)⟩

end Sys2Proof.Machine
end

