-- ==== Sys2Proof/Laws/PerInstr.lean ====
section
/-! SUPPORT. Per-instruction laws: what encodes an operation decodes to it. -/

namespace Sys2Proof.Laws.RoundTrip

/-- Decoding an operation's encoding gives the operation back. -/
def Statement (i : Instr) : Prop := decode (encode i) = .ok i

theorem reset : Statement .reset := rfl
theorem versionRequest : Statement .versionRequest := rfl
theorem noOperation : Statement .noOperation := rfl
theorem setTxStartCode (p : Byte) : Statement (.setTxStartCode p) := rfl
theorem turnTxOn : Statement .turnTxOn := rfl
theorem turnTxOff : Statement .turnTxOff := rfl
theorem setDmxChannelValueLow (idx val : Byte) : Statement (.setDmxChannelValueLow idx val) := rfl
theorem setDmxChannelValueHigh (idx val : Byte) : Statement (.setDmxChannelValueHigh idx val) := rfl
theorem turnOnBlackout : Statement .turnOnBlackout := rfl
theorem turnOffBlackout : Statement .turnOffBlackout := rfl
theorem setLastTxCodeLow (p : Byte) : Statement (.setLastTxCodeLow p) := rfl
theorem setLastTxCodeHigh (p : Byte) : Statement (.setLastTxCodeHigh p) := rfl
theorem tickBreak : Statement .tickBreak := rfl
theorem tickMarkAfterBreak : Statement .tickMarkAfterBreak := rfl
theorem tickStartBit : Statement .tickStartBit := rfl
theorem tickDataBit : Statement .tickDataBit := rfl
theorem tickLastDataBit : Statement .tickLastDataBit := rfl
theorem tickStopBits : Statement .tickStopBits := rfl
theorem tickIdle : Statement .tickIdle := rfl

end Sys2Proof.Laws.RoundTrip
end

