-- ==== Sys2Proof/Laws/Step.lean ====
section
/-! SUPPORT. What one step can do, said once. -/

namespace Sys2Proof.Machine

theorem step_of_legal {s : State} (h : s.legal = true) : step s = s.arrived.serve s.event := by
  simp [step, blockStep, h]

theorem step_of_illegal {s : State} (h : s.legal = false) : step s = .refused .unreachableState := by
  simp [step, blockStep, h]

theorem State.arrived_legal (s : State) : s.arrived.legal = s.legal := rfl

/-- A step that goes on served its event in a legal state. -/
theorem step_next {s t : State} (h : step s = .next t) : s.legal = true ∧ s.arrived.serve s.event = .next t := by
  cases hl : s.legal with
  | true => exact ⟨rfl, by rw [← step_of_legal hl]; exact h⟩
  | false => rw [step_of_illegal hl] at h; cases h

/-- Everything a decode step can do (R170): execute the command the byte completes, discard the byte, or wait. -/
theorem hStep_cases (b : Byte) (s : State) :
    (∃ i, s.dec.feed b = (.awaitOpcode, some (.command i)) ∧ i.isCommand = true ∧
      hStep b s = exec i { s with dec := .awaitOpcode }) ∨
    (s.dec = .awaitOpcode ∧ Opcode.ofByte b = none ∧ hStep b s = .next s) ∨
    (∃ op ps, s.dec.feed b = (.awaitParams op ps, none) ∧ hStep b s = .next { s with dec := .awaitParams op ps }) := by
  rcases Dec.feed_cases s.dec b with ⟨i, hf, hi, -⟩ | ⟨hd, ho, hf⟩ | ⟨op, ps, hf, -⟩
  · exact .inl ⟨i, hf, hi, by simp [hStep, hf]⟩
  · exact .inr (.inl ⟨hd, ho, by simp [hStep, hf]⟩)
  · exact .inr (.inr ⟨op, ps, hf, by simp [hStep, hf]⟩)

/-- Everything a step can serve, and when (R228, R256). -/
theorem State.event_cases (s : State) :
    (s.event = .powerOn ∧ s.moment.rst = true) ∨
    (s.event = .tick ∧ s.moment.rst = false ∧ s.moment.tick = true) ∨
    (s.event = .resetWrite s.moment.pick ∧ s.moment.rst = false ∧ s.moment.tick = false ∧ s.resetSeq ≠ []) ∨
    (∃ b bs, s.event = .byte b ∧ s.moment.rst = false ∧ s.moment.tick = false ∧ s.resetSeq = [] ∧
      s.arrived.rxQueue = b :: bs) ∨
    (s.event = .quiet ∧ s.moment.rst = false ∧ s.moment.tick = false ∧ s.resetSeq = [] ∧ s.arrived.rxQueue = []) := by
  have hs : s.arrived.resetSeq = s.resetSeq := rfl
  unfold State.event State.serves
  rw [hs]
  cases s.moment.rst with
  | true => exact .inl ⟨rfl, rfl⟩
  | false =>
    cases s.moment.tick with
    | true => exact .inr (.inl ⟨rfl, rfl, rfl⟩)
    | false =>
      by_cases hr : s.resetSeq = []
      · cases hq : s.arrived.rxQueue with
        | nil => exact .inr (.inr (.inr (.inr ⟨by simp [hr], rfl, rfl, hr, rfl⟩)))
        | cons b bs => exact .inr (.inr (.inr (.inl ⟨b, bs, by simp [hr], rfl, rfl, hr, rfl⟩)))
      · exact .inr (.inr (.inl ⟨by simp [hr], rfl, rfl, hr⟩))

theorem State.event_eq_tick_iff (s : State) : s.event = .tick ↔ s.moment.rst = false ∧ s.moment.tick = true := by
  rcases s.event_cases with ⟨h, h'⟩ | ⟨h, h'⟩ | ⟨h, h'⟩ | ⟨b, bs, h, h'⟩ | ⟨h, h'⟩ <;> simp [h, h']

theorem State.event_eq_powerOn_iff (s : State) : s.event = .powerOn ↔ s.moment.rst = true := by
  rcases s.event_cases with ⟨h, h'⟩ | ⟨h, h'⟩ | ⟨h, h'⟩ | ⟨b, bs, h, h'⟩ | ⟨h, h'⟩ <;> simp [h, h']

/-- Placing a stimulus lists one moment before the others. -/
theorem State.place_inputs (s : State) (st : Stimulus) : (s.place st).inputs.tail = s.inputs := by
  cases st <;> rfl

end Sys2Proof.Machine
end

