-- ==== Sys2Proof/Tests/Slice0.lean ====
section
/-! SUPPORT. The model's own tests. Expected results are the spec's: encodings of 30_encoding.md, vectors of
95_test_vectors.md (cited by their id). Then one witness for every statement that has hypotheses. -/

namespace Sys2Proof.Tests

open Sys2Proof.Machine

/-- The result is a next state of which `p` holds. -/
def holds (r : Result) (p : State → Bool) : Bool :=
  match r with
  | .next t => p t
  | .fault _ => false
  | .refused _ => false

theorem answers_of_holds {r : Result} {p : State → Bool} (h : holds r p = true) : ∃ t, r = .next t ∧ p t = true := by
  cases r with
  | next t => exact ⟨t, rfl, h⟩
  | fault f => cases h
  | refused f => cases h

/-- SF1 of 95_test_vectors.md: at the head of a 2-slot frame. -/
def sf1 : State := { State.reset with remain := 1, flast := 1, last := 1, buf := [(1, 0xA5)] }

/-- `s` with one moment coming. -/
def given (m : Moment) (s : State) : State := { s with inputs := [m] }

/-- The table word of a command with one parameter. -/
def word1 (op p : Byte) : Nat := op.toNat + 256 * p.toNat

/-- The table word of a command with two parameters. -/
def word2 (op p q : Byte) : Nat := op.toNat + 256 * p.toNat + 65536 * q.toNat

/-! ### Well-formedness: each check refuses an ill-formed term -/

theorem test_command_refuses_missing_parameter : wellFormedCommand .setDmxChannelValueLow [0x05] = false := by decide
theorem test_command_refuses_extra_parameter : wellFormedCommand .reset [0x00] = false := by decide
theorem test_decoder_refuses_full_parameter_list : Dec.wellFormed (.awaitParams .setTxStartCode [0x17]) = false := by decide
theorem test_decoder_refuses_waiting_for_nothing : Dec.wellFormed (.awaitParams .noOperation []) = false := by decide
theorem test_selector_refuses_code_6 : TickSelector.wellFormed ⟨6, 0⟩ = false := by decide
theorem test_selector_refuses_code_7 : TickSelector.wellFormed ⟨7, 7⟩ = false := by decide
theorem test_selector_accepts_code_5 : TickSelector.wellFormed ⟨5, 0⟩ = true := by decide
theorem test_set_channel_refuses_0 : Pseudo.wellFormed (.setChannel 0 0xFF) = false := by decide
theorem test_set_channel_refuses_513 : Pseudo.wellFormed (.setChannel 513 0xFF) = false := by decide
theorem test_set_last_refuses_0 : Pseudo.wellFormed (.setLast 0) = false := by decide
theorem test_set_last_refuses_513 : Pseudo.wellFormed (.setLast 513) = false := by decide
/-- R92: an `Instr` has no ill-formed term. -/
theorem test_every_parameter_value_is_legal (i : Instr) : i.wellFormed = true := by cases i <;> rfl

/-! ### Decoding: each operation's word, written out from R93, R91 and R100 -/

theorem test_decode_reset : decode (.bytes [0b00100010]) = .ok .reset := rfl
theorem test_decode_version_request : decode (.bytes [0b00100100]) = .ok .versionRequest := rfl
theorem test_decode_no_operation : decode (.bytes [0b00100110]) = .ok .noOperation := rfl
theorem test_decode_set_tx_start_code : decode (.bytes [0b01000010, 0b00010111]) = .ok (.setTxStartCode 0x17) := rfl
theorem test_decode_turn_tx_on : decode (.bytes [0b01000100]) = .ok .turnTxOn := rfl
theorem test_decode_turn_tx_off : decode (.bytes [0b01000110]) = .ok .turnTxOff := rfl
theorem test_decode_channel_low :
    decode (.bytes [0b01001000, 0b00000001, 0b10000000]) = .ok (.setDmxChannelValueLow 0x01 0x80) := rfl
theorem test_decode_channel_high :
    decode (.bytes [0b01001001, 0b11111111, 0b00000111]) = .ok (.setDmxChannelValueHigh 0xFF 0x07) := rfl
theorem test_decode_turn_on_blackout : decode (.bytes [0b01001010]) = .ok .turnOnBlackout := rfl
theorem test_decode_turn_off_blackout : decode (.bytes [0b01001100]) = .ok .turnOffBlackout := rfl
theorem test_decode_set_last_low : decode (.bytes [0b01001110, 0b00000010]) = .ok (.setLastTxCodeLow 0x02) := rfl
theorem test_decode_set_last_high : decode (.bytes [0b01001111, 0b11111111]) = .ok (.setLastTxCodeHigh 0xFF) := rfl
theorem test_decode_tick_break : decode (.tick ⟨0b000, 0b101⟩) = .ok .tickBreak := rfl
theorem test_decode_tick_mark_after_break : decode (.tick ⟨0b001, 0b000⟩) = .ok .tickMarkAfterBreak := rfl
theorem test_decode_tick_start_bit : decode (.tick ⟨0b010, 0b111⟩) = .ok .tickStartBit := rfl
theorem test_decode_tick_data_bit : decode (.tick ⟨0b011, 0b110⟩) = .ok .tickDataBit := rfl
theorem test_decode_tick_last_data_bit : decode (.tick ⟨0b011, 0b111⟩) = .ok .tickLastDataBit := rfl
theorem test_decode_tick_stop_bits : decode (.tick ⟨0b100, 0b111⟩) = .ok .tickStopBits := rfl
theorem test_decode_tick_idle : decode (.tick ⟨0b101, 0b000⟩) = .ok .tickIdle := rfl

/-- R96: the neighbours of opcodes, and D-2's bytes, are no opcodes. -/
theorem test_unlisted_bytes_are_refused :
    ([0x00, 0xFF, 0x23, 0xCF, 0xA2, 0x80, 0x4B, 0x4D] : List Byte).map Opcode.ofByte = List.replicate 8 none := by decide
theorem test_phase_codes_6_and_7_are_refused :
    decodeTick ⟨6, 0⟩ = .error (.noSuchPhase 6) ∧ decodeTick ⟨7, 0⟩ = .error (.noSuchPhase 7) := ⟨rfl, rfl⟩
theorem test_missing_parameter_is_refused :
    decode (.bytes [0x48, 0x05]) = .error (.incomplete .setDmxChannelValueLow [0x05]) := rfl
theorem test_no_byte_is_refused : decode (.bytes []) = .error .noByte := rfl
theorem test_trailing_byte_is_refused : decode (.bytes [0x26, 0x22]) = .error (.trailing [0x22]) := rfl
/-- D-11: the parameter 0x22 runs no RESET. -/
theorem test_stream_parameter_is_no_opcode :
    decodeStream .awaitOpcode [0x26, 0xFF, 0x42, 0x22] =
      ([.command .noOperation, .discarded 0xFF, .command (.setTxStartCode 0x22)], .awaitOpcode) := by decide

/-- R101's example of the notation. -/
theorem test_assembly_notation :
    (Instr.setDmxChannelValueLow 0x00 0xFF).assembly = "SET_DMX_CHANNEL_VALUE_LOW 0x00, 0xFF" := by decide

theorem test_table_word_command : decodeTableWord 24 (word2 0x48 0x22 0x26) = some (.setDmxChannelValueLow 0x22 0x26) := by decide
theorem test_table_word_selectors :
    (List.range 8).map (decodeTableWord 8) =
      [some .tickBreak, some .tickMarkAfterBreak, some .tickStartBit, some .tickDataBit, some .tickStopBits,
       some .tickIdle, none, none] := by decide

/-! ### The placed word is what the next step runs -/

theorem test_placed_command_runs :
    holds (step (State.reset.withFetchWord 16 (word1 0x4E 0x02))) (fun t => t.last == 3 && t.resp == [0xCE]) = true := by decide
theorem test_placed_tick_runs :
    holds (step (State.reset.withFetchWord 8 4)) (fun t => t.phase == .startBit && t.remain == 511) = true := by decide
theorem test_placed_last_data_bit_runs :
    holds (step (State.reset.withFetchWord 8 0x3B)) (fun t => t.phase == .stopBits && t.pend == true) = true := by decide

/-! ### The level function (95_test_vectors.md 2.1) -/

theorem test_levels :
    level 0xA5 0 0x01 = true ∧ level 0xA5 1 0x01 = false ∧ level 0xA5 7 0x01 = true ∧ level 0x80 7 0x01 = true ∧
    level 0x80 6 0x01 = false ∧ level 0xFF 3 0x00 = false ∧ level 0x00 0 0x01 = false ∧ level 0x01 0 0x00 = false ∧
    level 0x02 0 0x02 = true := by decide

/-! ### Tick cases (95_test_vectors.md 2.2) -/

/-- G-1 -/
theorem test_tick_break :
    holds (exec .tickBreak State.reset)
      (fun t => t.reload == 20 && t.pin == false && t.phase == .markAfterBreak && t.pend == true) = true := by decide
/-- G-2 -/
theorem test_tick_mark_after_break :
    holds (exec .tickMarkAfterBreak { State.reset with phase := .markAfterBreak, pend := true })
      (fun t => t.reload == 220 && t.pin == true && t.phase == .startBit && t.pend == false) = true := by decide
/-- G-4 -/
theorem test_tick_start_bit_last_slot :
    holds (exec .tickStartBit { State.reset with phase := .startBit, flast := 3, remain := 0, buf := [(3, 0xFE)] })
      (fun t => t.pin == false && t.shift == 0xFE && t.bitpos == 0 && t.phase == .dataBits && t.pend == false) = true := by
  decide
/-- G-5 -/
theorem test_tick_start_bit_blackout :
    holds (exec .tickStartBit
        { State.reset with phase := .startBit, flast := 1, remain := 0, buf := [(1, 0xFF)], blackout := 0x00 })
      (fun t => t.pin == false && t.shift == 0xFF && t.bitpos == 0 && t.pend == false) = true := by decide
/-- G-6 -/
theorem test_tick_data_bit_first :
    holds (exec .tickDataBit { State.reset with phase := .dataBits, bitpos := 0, shift := 0xA5, pend := true })
      (fun t => t.reload == 249 && t.pin == true && t.bitpos == 1 && t.pend == false) = true := by decide
/-- G-7 -/
theorem test_tick_data_bit_sixth :
    holds (exec .tickDataBit { State.reset with phase := .dataBits, bitpos := 6, shift := 0x80, pend := false })
      (fun t => t.pin == false && t.bitpos == 7 && t.pend == true) = true := by decide
/-- G-8 -/
theorem test_tick_last_data_bit :
    holds (exec .tickLastDataBit { State.reset with phase := .dataBits, bitpos := 7, shift := 0x80, pend := true })
      (fun t => t.reload == 249 && t.pin == true && t.phase == .stopBits && t.pend == true && t.bitpos == 7) = true := by
  decide
/-- G-10 -/
theorem test_tick_stop_bits_frame_end :
    holds (exec .tickStopBits { State.reset with phase := .stopBits, remain := 0, last := 3, flast := 1, pend := true })
      (fun t => t.reload == 239 && t.pin == true && t.remain == 3 && t.flast == 3 && t.phase == .brk && t.pend == false)
      = true := by decide
/-- G-11 -/
theorem test_tick_stop_bits_halt :
    holds (exec .tickStopBits { State.reset with phase := .stopBits, remain := 5, txen := false, pend := true })
      (fun t => t.pin == true && t.remain == 4 && t.phase == .idle && t.pend == true) = true := by decide
/-- G-13 -/
theorem test_tick_idle_stays :
    holds (exec .tickIdle { State.reset with phase := .idle, pend := true, txen := false })
      (fun t => t.reload == 249 && t.pin == true && t.phase == .idle && t.pend == true) = true := by decide
/-- G-14 -/
theorem test_tick_idle_resumes :
    holds (exec .tickIdle { State.reset with phase := .idle, pend := true, remain := 4, flast := 9 })
      (fun t => t.pin == true && t.phase == .startBit && t.pend == false && t.slotIndex == 5) = true := by decide
/-- R100: a tick case that `PHASE` does not select is refused. -/
theorem test_unselected_case_is_refused : exec .tickIdle State.reset = .refused .caseNotSelected := rfl
/-- R132: `LAST = 0` is refused. -/
theorem test_unreachable_last_is_refused : exec .tickBreak { State.reset with last := 0 } = .refused .unreachableState := rfl

/-! ### Host commands (95_test_vectors.md 2.7, 2.8) -/

/-- H-1 -/
theorem test_set_tx_start_code :
    holds (exec (.setTxStartCode 0x17) State.reset) (fun t => t.buf == [(0, 0x17)] && t.resp == [0xC2]) = true := by decide
/-- H-21 -/
theorem test_set_tx_start_code_zero :
    holds (exec (.setTxStartCode 0x00) { State.reset with buf := [(0, 0x17)] }) (fun t => t.buf == []) = true := by decide
/-- H-2 -/
theorem test_no_operation :
    holds (exec .noOperation State.reset) (fun t => t.lastnop && t.resp == [0xA6]) = true := by decide
/-- H-3 -/
theorem test_channel_low_first :
    holds (exec (.setDmxChannelValueLow 0x00 0xFF) State.reset) (fun t => t.buf == [(1, 0xFF)] && t.resp == []) = true := by
  decide
/-- H-14 -/
theorem test_channel_low_last :
    holds (exec (.setDmxChannelValueLow 0xFF 0x07) State.reset) (fun t => t.buf == [(256, 0x07)]) = true := by decide
/-- H-4 -/
theorem test_channel_high_last :
    holds (exec (.setDmxChannelValueHigh 0xFF 0xFF) State.reset) (fun t => t.buf == [(512, 0xFF)] && t.resp == []) = true := by
  decide
/-- H-15 -/
theorem test_channel_high_first :
    holds (exec (.setDmxChannelValueHigh 0x00 0x07) State.reset) (fun t => t.buf == [(257, 0x07)]) = true := by decide
/-- H-5 -/
theorem test_version_request :
    holds (exec .versionRequest State.reset) (fun t => t.resp == [0xA4, 0x14, 0x54, 0x53, 0x00]) = true := by decide
/-- H-6 -/
theorem test_reset_unguarded :
    holds (exec .reset State.reset) (fun t => t.resp == [0xA3] && t.resetSeq == []) = true := by decide
/-- H-7's last write: the response follows it. -/
theorem test_reset_last_write :
    holds (step (given quietMoment { State.reset with resetSeq := [.txen], txen := false, lastnop := true, resp := [0xA6] }))
      (fun t => t.txen && !t.lastnop && t.resp == [0xA6, 0xA2] && t.resetSeq == []) = true := by decide
/-- H-8 -/
theorem test_turn_on_blackout :
    holds (exec .turnOnBlackout State.reset) (fun t => t.blackout == 0x00 && t.resp == [0xCA]) = true := by decide
/-- H-9 -/
theorem test_turn_off_blackout :
    holds (exec .turnOffBlackout { State.reset with blackout := 0x00 }) (fun t => t.blackout == 0x01 && t.resp == [0xCC])
      = true := by decide
/-- H-10 -/
theorem test_turn_tx_on :
    holds (exec .turnTxOn { State.reset with txen := false }) (fun t => t.txen && t.resp == []) = true := by decide
/-- H-11; D-12: it clears the guard. -/
theorem test_turn_tx_off :
    holds (exec .turnTxOff { State.reset with lastnop := true }) (fun t => !t.txen && !t.lastnop && t.resp == []) = true := by
  decide
/-- H-12 -/
theorem test_set_last_low :
    holds (exec (.setLastTxCodeLow 0x02) State.reset) (fun t => t.last == 3 && t.resp == [0xCE]) = true := by decide
/-- H-17 -/
theorem test_set_last_low_highest :
    holds (exec (.setLastTxCodeLow 0xFF) State.reset) (fun t => t.last == 256) = true := by decide
/-- H-13 -/
theorem test_set_last_high_highest :
    holds (exec (.setLastTxCodeHigh 0xFF) { State.reset with last := 3 }) (fun t => t.last == 512 && t.resp == [0xCE]) = true := by
  decide
/-- H-18 -/
theorem test_set_last_high_lowest :
    holds (exec (.setLastTxCodeHigh 0x00) State.reset) (fun t => t.last == 257) = true := by decide
/-- D-4 -/
theorem test_pending_command_completes :
    holds (step (given (byteMoment 0x09) { State.reset with dec := .awaitParams .setDmxChannelValueLow [0x05] }))
      (fun t => t.buf == [(6, 0x09)] && t.dec == .awaitOpcode) = true := by decide
/-- D-5 -/
theorem test_opcode_waits_for_its_parameter :
    holds (step (given (byteMoment 0x4F) State.reset)) (fun t => t.dec == .awaitParams .setLastTxCodeHigh []) = true := by decide
/-- D-6: the unrecognised byte does not break the guard. -/
theorem test_discarded_byte_keeps_the_guard :
    holds (step (given (byteMoment 0xFF) { State.reset with lastnop := true })) (fun t => t.lastnop && t.resp == []) = true := by
  decide
/-- R228: with a tick and a byte at the same moment, the tick is taken and the byte waits. -/
theorem test_tick_before_byte :
    holds (step (given ⟨false, true, some 0x26, 0⟩ State.reset))
      (fun t => t.phase == .markAfterBreak && t.rxQueue == [0x26] && t.resp == []) = true := by decide
/-- R256: a power-on reset discards an incomplete command. -/
theorem test_power_on_reset :
    holds (step (given ⟨true, true, none, 0⟩ { sf1 with dec := .awaitParams .setTxStartCode [], resp := [0xA6] }))
      (fun t => t.dec == .awaitOpcode && t.resp == [] && t.last == 512 && t.buf == []) = true := by decide

/-! ### Witnesses: states and operands that meet a statement's hypotheses together. `witness_X` is for Obligations.X; where a
statement has clauses, each has its part, at a boundary value of its range. -/

/-- SF1 in another phase. -/
def sf1At (p : Phase) (pend : Level) : State := { sf1 with phase := p, pend := pend }

theorem inv_sf1 : sf1.Inv := by constructor <;> decide
theorem inv_mark_after_break : (sf1At .markAfterBreak true).Inv := by constructor <;> decide
theorem inv_start_bit : (sf1At .startBit false).Inv := by constructor <;> decide
theorem inv_stop_bits : (sf1At .stopBits true).Inv := by constructor <;> decide
theorem inv_idle : (sf1At .idle true).Inv := by constructor <;> decide
theorem inv_data_bits : ({ sf1At .dataBits true with shift := 0xA5 } : State).Inv := by constructor <;> decide

/-- SF1 with one moment coming, in which nothing arrives but the byte `b`. -/
def sf1Byte (b : Byte) : State := given (byteMoment b) sf1

theorem serves_sf1_byte (b : Byte) : ServesByte (sf1Byte b) b [] := ⟨rfl, rfl, rfl, rfl, rfl⟩

theorem witness_CommandStreamDecodesToItsCommands :
    ∀ i ∈ ([.noOperation, .reset, .setTxStartCode 0x22, .setDmxChannelValueHigh 0x26 0xFF] : List Instr),
      i.isCommand = true := by decide

theorem witness_StreamDecodingLosesNothing : (Dec.awaitParams .setDmxChannelValueLow [0x05]).wellFormed = true := by decide

theorem witness_ParameterBytesAreNeverOpcodes :
    0 < Opcode.setTxStartCode.arity ∧ ([] : List Byte).length + 1 = Opcode.setTxStartCode.arity ∧
    ([] : List Byte).length + 1 < Opcode.setDmxChannelValueLow.arity ∧
    ([0x22] : List Byte).length + 1 = Opcode.setDmxChannelValueLow.arity := by decide

theorem witness_TwoNonOpcodesResynchronise :
    (Dec.awaitParams .setDmxChannelValueLow []).wellFormed = true ∧ (0x00 : Byte) ∉ opcodeBytes ∧ (0xFF : Byte) ∉ opcodeBytes := by
  decide

theorem witness_UnlistedByteIsDiscarded :
    ServesByte (sf1Byte 0x23) 0x23 [] ∧ (sf1Byte 0x23).dec = .awaitOpcode ∧ (0x23 : Byte) ∉ opcodeBytes :=
  ⟨serves_sf1_byte _, rfl, by decide⟩

theorem witness_SetTxStartCodeWritesEntryZero :
    holds (exec (.setTxStartCode 0xFF) (sf1At .startBit false))
      (fun t => t.legal && t.phase == .startBit && t.slotIndex == 0) = true := by decide

theorem witness_NoOperationSetsTheGuard :
    (0x00 : Byte) ∉ opcodeBytes ∧ Instr.turnTxOn.isCommand = true ∧ Instr.turnTxOn ≠ .noOperation ∧
      Instr.turnTxOn ≠ .reset := by decide

theorem witness_SetChannelLowWritesItsEntry :
    holds (exec (.setDmxChannelValueLow 0x00 0x80) { sf1At .startBit false with flast := 256, remain := 255 })
      (fun t => t.legal && t.phase == .startBit && t.slotIndex == lowIndex 0x00) = true ∧
    holds (exec (.setDmxChannelValueLow 0xFF 0x80) { sf1At .startBit false with flast := 256, remain := 0 })
      (fun t => t.legal && t.phase == .startBit && t.slotIndex == lowIndex 0xFF) = true := by decide

theorem witness_SetChannelHighWritesItsEntry :
    holds (exec (.setDmxChannelValueHigh 0x00 0x80) { sf1At .startBit false with flast := 512, remain := 255 })
      (fun t => t.legal && t.phase == .startBit && t.slotIndex == highIndex 0x00) = true ∧
    holds (exec (.setDmxChannelValueHigh 0xFF 0x80) { sf1At .startBit false with flast := 512, remain := 0 })
      (fun t => t.legal && t.phase == .startBit && t.slotIndex == highIndex 0xFF) = true := by decide

theorem witness_UnguardedResetFails : State.reset.lastnop = false := rfl

theorem witness_GuardedResetRestoresTheSharedState :
    ({ sf1 with lastnop := true } : State).lastnop = true ∧ ([] : List Nat).length < 516 ∧
      (List.replicate 515 0).length < 516 ∧ (List.replicate 516 0).length = 516 :=
  ⟨rfl, by decide, by rw [List.length_replicate]; decide, List.length_replicate⟩

theorem witness_TurnOnBlackoutClearsTheMask :
    let u : State := { sf1At .startBit false with blackout := 0x00 }
    let v : State := { sf1At .dataBits false with blackout := 0x00, bitpos := 6 }
    u.legal = true ∧ ComputesLevel u ∧ u.blackout = 0x00 ∧ v.legal = true ∧ ComputesLevel v ∧ v.blackout = 0x00 :=
  ⟨by decide, .inl rfl, rfl, by decide, .inr ⟨rfl, by decide⟩, rfl⟩

theorem witness_TurnOffBlackoutSetsTheMask :
    let u : State := sf1At .startBit false
    let v : State := { sf1At .dataBits false with bitpos := 6 }
    u.legal = true ∧ ComputesLevel u ∧ u.blackout = 0x01 ∧ v.legal = true ∧ ComputesLevel v ∧ v.blackout = 0x01 :=
  ⟨by decide, .inl rfl, rfl, by decide, .inr ⟨rfl, by decide⟩, rfl⟩

theorem witness_TurnTxOnWritesTxenOnly :
    (∃ r, exec .turnTxOff sf1 = .next r) ∧
    (sf1At .idle true).legal = true ∧ (sf1At .idle true).phase = .idle ∧ (sf1At .idle true).txen = true :=
  ⟨⟨_, rfl⟩, by decide, rfl, rfl⟩

theorem witness_TurnTxOffWritesTxenOnly :
    let u : State := { sf1At .stopBits true with txen := false }
    u.Inv ∧ u.phase = .stopBits ∧ u.txen = false := ⟨by constructor <;> decide, rfl, rfl⟩

theorem witness_SetLastLowWritesLast :
    let u : State := { sf1At .stopBits true with last := 256, remain := 0 }
    let v : State := { sf1At .stopBits true with last := 1, remain := 1 }
    u.legal = true ∧ u.last = lowLast 0xFF ∧ u.phase = .stopBits ∧ u.remain = 0 ∧
      v.legal = true ∧ v.last = lowLast 0x00 ∧ v.remain ≠ 0 := by decide

theorem witness_SetLastHighWritesLast :
    let u : State := { sf1At .stopBits true with last := 512, remain := 0 }
    let v : State := { sf1At .brk false with last := 257 }
    u.legal = true ∧ u.last = highLast 0xFF ∧ u.phase = .stopBits ∧ u.remain = 0 ∧
      v.legal = true ∧ v.last = highLast 0x00 ∧ v.phase ≠ .stopBits := by decide

theorem witness_RepeatedCommandChangesOnlyResponses :
    Instr.turnOnBlackout.isCommand = true ∧ Instr.turnOnBlackout ≠ .reset := by decide

/-- The expansions at the boundaries 1, 256, 257 and 512; and the conditions just outside them. -/
theorem witness_PseudoInstructionsDoWhatTheyName :
    (Pseudo.setChannel 1 0xFF).expand = some [.setDmxChannelValueLow 0x00 0xFF] ∧
    (Pseudo.setChannel 256 0xFF).expand = some [.setDmxChannelValueLow 0xFF 0xFF] ∧
    (Pseudo.setChannel 257 0xFF).expand = some [.setDmxChannelValueHigh 0x00 0xFF] ∧
    (Pseudo.setChannel 512 0xFF).expand = some [.setDmxChannelValueHigh 0xFF 0xFF] ∧
    (Pseudo.setLast 1).expand = some [.setLastTxCodeLow 0x00] ∧ (Pseudo.setLast 256).expand = some [.setLastTxCodeLow 0xFF] ∧
    (Pseudo.setLast 257).expand = some [.setLastTxCodeHigh 0x00] ∧ (Pseudo.setLast 512).expand = some [.setLastTxCodeHigh 0xFF] ∧
    (Pseudo.setLast 0).wellFormed = false ∧ (Pseudo.setChannel 513 0x00).wellFormed = false := by decide

theorem witness_BreakStep : sf1.phase = .brk ∧ sf1.legal = true ∧ sf1.Inv := ⟨rfl, by decide, inv_sf1⟩

theorem witness_MarkAfterBreakStep : (sf1At .markAfterBreak true).legal = true ∧ (sf1At .markAfterBreak true).Inv :=
  ⟨by decide, inv_mark_after_break⟩

/-- Slot 0, and the last slot of the longest frame. -/
theorem witness_StartBitStep :
    (sf1At .startBit false).legal = true ∧ (sf1At .startBit false).Inv ∧
    ({ sf1At .startBit false with flast := 512, remain := 0 } : State).legal = true ∧
    ({ sf1At .startBit false with flast := 512, remain := 0 } : State).slotIndex = 512 :=
  ⟨by decide, inv_start_bit, by decide, by decide⟩

theorem witness_DataBitStep :
    let u : State := { sf1At .dataBits false with bitpos := 6 }
    u.phase = .dataBits ∧ u.bitpos.toNat < 7 ∧ u.legal = true := by decide

theorem witness_LastDataBitStep :
    let u : State := { sf1At .dataBits false with bitpos := 7 }
    u.phase = .dataBits ∧ u.bitpos = 7 ∧ u.legal = true := by decide

/-- The frame's end and before it, each with `TXEN` 1 and 0. -/
theorem witness_StopBitsStep :
    (sf1At .stopBits true).Inv ∧ (sf1At .stopBits true).remain ≠ 0 ∧ (sf1At .stopBits true).txen = true ∧
    (∀ b : Bool, ({ sf1At .stopBits true with remain := 0, txen := b } : State).legal = true) ∧
    ({ sf1At .stopBits true with txen := false } : State).legal = true := ⟨inv_stop_bits, by decide, rfl, by decide, by decide⟩

theorem witness_IdleStep :
    (sf1At .idle true).Inv ∧ (∀ b : Bool, ({ sf1At .idle true with txen := b } : State).legal = true) := ⟨inv_idle, by decide⟩

theorem witness_StepRunsTheSelectedTickFirst :
    let s := given ⟨false, true, some 0x26, 0⟩ sf1
    s.legal = true ∧ s.moment.rst = false ∧ s.moment.tick = true := by decide

theorem witness_StepExecutesTheCompletedCommand :
    let s : State := { sf1Byte 0x22 with dec := .awaitParams .setTxStartCode [] }
    ServesByte s 0x22 [] ∧ s.dec.bytes ++ [0x22] = encodeCommand (.setTxStartCode 0x22) ∧
    ServesByte (sf1Byte 0x24) 0x24 [] ∧ (sf1Byte 0x24).dec.bytes ++ [0x24] = encodeCommand .versionRequest :=
  ⟨⟨by decide, rfl, rfl, rfl, rfl⟩, rfl, serves_sf1_byte _, rfl⟩

theorem witness_IncompleteCommandHoldsOnlyTheDecoder :
    let s : State := { sf1Byte 0x22 with dec := .awaitParams .setDmxChannelValueLow [] }
    ServesByte (sf1Byte 0x48) 0x48 [] ∧ (sf1Byte 0x48).dec.bytes ++ [0x48] = Opcode.setDmxChannelValueLow.code :: [] ∧
    ServesByte s 0x22 [] ∧ s.dec.bytes ++ [0x22] = Opcode.setDmxChannelValueLow.code :: [0x22] ∧
    ([0x22] : List Byte).length < Opcode.setDmxChannelValueLow.arity :=
  ⟨serves_sf1_byte _, rfl, ⟨by decide, rfl, rfl, rfl, rfl⟩, rfl, by decide⟩

/-- A RESET with two writes left, and with one. -/
def sf1Resetting (ws : List ResetWrite) : State :=
  given ⟨false, false, some 0x26, 1⟩ { sf1 with lastnop := true, resetSeq := ws }

theorem witness_StepDoesOneResetWrite :
    ∀ ws ∈ [[ResetWrite.last, .buf 1], [.buf 512]],
      (sf1Resetting ws).legal = true ∧ (sf1Resetting ws).moment.rst = false ∧ (sf1Resetting ws).moment.tick = false ∧
        (sf1Resetting ws).resetSeq ≠ [] := by decide

theorem witness_PowerOnResetIsOneEvent :
    let s := given ⟨true, true, some 0x22, 0⟩ { sf1 with dec := .awaitParams .setTxStartCode [], resetSeq := [.txen] }
    s.legal = true ∧ s.moment.rst = true := by decide

theorem witness_StepKeepsTheInvariant : ∃ s t : State, s.Inv ∧ step s = .next t := by
  obtain ⟨t, ht, -⟩ := answers_of_holds
    (show holds (step (given tickMoment sf1)) (fun t => t.phase == .markAfterBreak) = true by decide)
  exact ⟨_, t, by constructor <;> decide, ht⟩

theorem witness_LegalStepAlwaysAnswers : sf1.legal = true ∧ ({ sf1 with last := 512, flast := 512, remain := 512 } : State).legal = true := by
  decide

theorem witness_UnreachableValuesAreRefused :
    ¬(1 ≤ ({ sf1 with last := 0 } : State).last.toNat) ∧ ¬(({ sf1 with last := 513 } : State).last.toNat ≤ 512) ∧
    ¬(1 ≤ ({ sf1 with flast := 0 } : State).flast.toNat) ∧ ¬(({ sf1 with flast := 513 } : State).flast.toNat ≤ 512) ∧
    ¬(({ sf1 with remain := 2 } : State).remain.toNat ≤ ({ sf1 with remain := 2 } : State).flast.toNat) := by decide

theorem witness_TickLeavesTheHostRegisters :
    ∃ s t : State, s.moment.rst = false ∧ s.moment.tick = true ∧ step s = .next t ∧ t.shift = 0x00 := by
  obtain ⟨t, ht, h⟩ := answers_of_holds
    (show holds (step (given ⟨false, true, some 0x26, 0⟩ (sf1At .startBit false))) (fun t => t.shift == 0x00) = true by decide)
  exact ⟨_, t, rfl, rfl, ht, by simpa using h⟩

theorem witness_OnlyATickMovesTheGenerator :
    (∃ s t : State, s.moment.rst = false ∧ s.moment.tick = false ∧ step s = .next t ∧ t.blackout = 0x00) ∧
    let s := sf1Byte 0x4A
    let u : State := { s with phase := .idle, pend := true, flast := 9, remain := 4, pin := false, reload := 7 }
    s.legal = true ∧ u.legal = true ∧ s.moment.rst = false ∧ s.moment.tick = false ∧ SameHost s u ∧ u.params = s.params ∧
      u.rxQueue = s.rxQueue ∧ u.inputs = s.inputs ∧ u.draws = s.draws := by
  obtain ⟨t, ht, h⟩ := answers_of_holds
    (show holds (step (sf1Byte 0x4A)) (fun t => t.blackout == 0x00) = true by decide)
  exact ⟨⟨_, t, rfl, rfl, ht, by simpa using h⟩, by decide, by decide, rfl, rfl,
    ⟨rfl, rfl, rfl, rfl, rfl, rfl, rfl, rfl⟩, rfl, rfl, rfl, rfl⟩

/-- The third clause: a moment with nothing to be served. -/
theorem witness_OnlyATickMovesTheGenerator_quiet :
    let s := given quietMoment sf1
    s.legal = true ∧ s.moment.rst = false ∧ s.moment.tick = false ∧ s.resetSeq = [] ∧ s.waiting = [] := by decide

theorem witness_TickReadsOnlyItsOperands :
    let s := sf1At .dataBits false
    let u : State := { s with buf := [(5, 0x01)], last := 9, txen := false, lastnop := true, resp := [0xA6] }
    s.legal = true ∧ u.legal = true ∧ SameGenerator s u ∧ u.params = s.params ∧
      (s.phase = .startBit → u.buf.get s.slotIndex = s.buf.get s.slotIndex) ∧
      (s.phase = .startBit ∨ s.phase = .dataBits ∧ s.bitpos.toNat < 7 → u.blackout = s.blackout) ∧
      (s.phase = .stopBits → s.remain = 0 → u.last = s.last) ∧
      (s.phase = .stopBits ∨ s.phase = .idle → u.txen = s.txen) :=
  ⟨by decide, by decide, ⟨rfl, rfl, rfl, rfl, rfl, rfl, rfl, rfl⟩, rfl, by decide, by decide, by decide, by decide⟩

theorem witness_BitRegistersAreNotReadOutsideDataBits :
    ∃ s t : State, s.legal = true ∧ s.phase ≠ .dataBits ∧ step s = .next t ∧ t.phase = .dataBits := by
  obtain ⟨t, ht, h⟩ := answers_of_holds
    (show holds (step (given tickMoment (sf1At .startBit false))) (fun t => t.phase == .dataBits) = true by decide)
  exact ⟨_, t, by decide, by decide, ht, by simpa using h⟩

theorem witness_OnlyTheStartCodeCommandSetsEntryZero :
    ∃ s t : State, step s = .next t ∧ t.buf.get 0 ≠ s.buf.get 0 := by
  obtain ⟨t, ht, h⟩ := answers_of_holds
    (show holds (step { sf1Byte 0x17 with dec := .awaitParams .setTxStartCode [] }) (fun t => t.buf.get 0 == 0x17) = true by decide)
  exact ⟨_, t, ht, by rw [eq_of_beq h]; decide⟩

theorem witness_LastIsSampledOnlyAtTheRestart : ∃ s t : State, step s = .next t ∧ t.flast ≠ s.flast := by
  obtain ⟨t, ht, h⟩ := answers_of_holds
    (show holds (step (given tickMoment { sf1At .stopBits true with remain := 0, last := 3 })) (fun t => t.flast == 3) = true by
      decide)
  exact ⟨_, t, ht, by rw [eq_of_beq h]; decide⟩

theorem witness_OnlyNoOperationSetsTheGuard : ∃ s t : State, step s = .next t ∧ s.lastnop = false ∧ t.lastnop = true := by
  obtain ⟨t, ht, h⟩ := answers_of_holds (show holds (step (sf1Byte 0x26)) (fun t => t.lastnop) = true by decide)
  exact ⟨_, t, ht, rfl, h⟩

/-- The second clause: a command, RESET's last write and a power-on reset each clear the guard. -/
theorem witness_OnlyNoOperationSetsTheGuard_cleared :
    ∀ s ∈ [{ sf1Byte 0x44 with lastnop := true }, sf1Resetting [.buf 512],
        given ⟨true, false, none, 0⟩ { sf1 with lastnop := true }],
      ∃ t : State, step s = .next t ∧ s.lastnop = true ∧ t.lastnop = false := by
  intro s hs
  have h : s.lastnop = true ∧ holds (step s) (fun t => !t.lastnop) = true := by
    simp only [List.mem_cons, List.not_mem_nil, or_false] at hs
    rcases hs with rfl | rfl | rfl <;> decide
  obtain ⟨t, ht, hn⟩ := answers_of_holds h.2
  exact ⟨t, ht, h.1, by simpa using hn⟩

theorem witness_ResponsesAreOnlyAppended : ∃ s t : State, s.moment.rst = false ∧ step s = .next t ∧ t.resp = [0xA6] := by
  obtain ⟨t, ht, h⟩ := answers_of_holds (show holds (step (sf1Byte 0x26)) (fun t => t.resp == [0xA6]) = true by decide)
  exact ⟨_, t, rfl, ht, eq_of_beq h⟩

theorem witness_EqualContentsAreEqualBuffers :
    let m : Memory := (Memory.set [] 512 0x01).set 0 0x17
    let m' : Memory := ((Memory.set [] 0 0x17).set 512 0x01).set 9 0x00
    m.wf = true ∧ m'.wf = true ∧ m = m' := by decide

theorem witness_LatchOrderDecidesTheSlot : (sf1At .startBit false).legal = true ∧ (sf1At .startBit false).phase = .startBit := by
  decide

theorem witness_EveryResetOrderIsAdmitted :
    (sf1Resetting [.last, .buf 1, .txen]).resetSeq ≠ [] ∧
      [ResetWrite.txen, .last, .buf 1].Perm (sf1Resetting [.last, .buf 1, .txen]).resetSeq := by decide

/-- 516 moments without a tick, after one tick. -/
theorem witness_ResetCompletesUnderAnyInterleaving :
    let s : State := { sf1 with resetSeq := ResetWrite.all, inputs := tickMoment :: List.replicate 516 (byteMoment 0x26) }
    s.legal = true ∧ s.resetSeq = ResetWrite.all ∧ 517 ≤ s.inputs.length ∧ (∀ m ∈ s.inputs.take 517, m.rst = false) ∧
      (s.inputs.take 517).countP (fun m => !m.tick) = 516 := by
  have h : (tickMoment :: List.replicate 516 (byteMoment 0x26)).take 517 = tickMoment :: List.replicate 516 (byteMoment 0x26) :=
    List.take_of_length_le (by rw [List.length_cons, List.length_replicate])
  refine ⟨rfl, rfl, by dsimp only; rw [List.length_cons, List.length_replicate], ?_, ?_⟩
  · intro m hm
    dsimp only at hm
    rw [h, List.mem_cons, List.mem_replicate] at hm
    rcases hm with rfl | ⟨-, rfl⟩ <;> rfl
  · dsimp only
    rw [h, List.countP_cons, List.countP_replicate]
    decide

/-- The states of a slot with nothing between its ticks. -/
def slotStates (s : State) : Nat → State
  | 0 => s
  | k + 1 => (slotStates s k).afterTick

theorem slotRun_of (s : State) (h : s.Inv) (hp : s.phase = .startBit) (hl : ∀ k, k < 10 → (slotStates s k).legal = true)
    (hq : ∀ k, k < 10 → (slotStates s k).params = s.params) :
    SlotRun (slotStates s) (fun k => slotStates s (k + 1)) where
  start := h
  phase := hp
  legal := hl
  tick := fun k hk => gStep_of_legal (hl k hk)
  host := fun _ _ => ⟨rfl, rfl, rfl, rfl, rfl, rfl, rfl, rfl⟩
  params := hq

theorem witness_SlotWaveformUnderHostActivity :
    SlotRun (slotStates { sf1At .startBit false with remain := 0 })
      (fun k => slotStates { sf1At .startBit false with remain := 0 } (k + 1)) :=
  slotRun_of _ (by constructor <;> decide) rfl (by decide) (by decide)

theorem witness_BlackedOutSlotIsAllLow :
    let s : State := { sf1At .startBit false with remain := 0, blackout := 0x00 }
    SlotRun (slotStates s) (fun k => slotStates s (k + 1)) ∧ ∀ j, j < 8 → (slotStates s j).blackout = 0x00 :=
  ⟨slotRun_of _ (by constructor <;> decide) rfl (by decide) (by decide), by decide⟩

/-- G-TRACE-1's start. -/
theorem witness_FrameWaveformAndLength :
    let s : State := { sf1 with inputs := List.replicate 22 tickMoment }
    s.Inv ∧ s.phase = .brk ∧ s.remain = s.flast ∧ s.txen = true ∧ frameTicks s.flast.toNat = 22 ∧ OnlyTicks 22 s :=
  ⟨by constructor <;> decide, rfl, rfl, rfl, by decide, by unfold OnlyTicks; decide⟩

/-- At the head of a frame, and within a slot. -/
theorem witness_HaltWithinTwelveTicks :
    let s : State := { sf1 with txen := false }
    let u : State := { sf1At .startBit false with txen := false }
    s.Inv ∧ s.txen = false ∧ s.phase = .brk ∧ u.Inv ∧ u.txen = false ∧ u.phase ≠ .brk ∧ u.phase ≠ .markAfterBreak :=
  ⟨by constructor <;> decide, rfl, rfl, by constructor <;> decide, rfl, by decide, by decide⟩

theorem witness_ResumeStartsAtTheSlotWithoutBreak :
    (sf1At .idle true).Inv ∧ (sf1At .idle true).phase = .idle ∧ (sf1At .idle true).txen = true := ⟨inv_idle, rfl, rfl⟩

/-- 95_test_vectors.md 2.10: Break and MarkAfterBreak under the literal reading, without delays. -/
theorem witness_DelaysChangeTimesOnly :
    timedWaveform (fun v => v.toNat) (fun _ => 0) (fun _ => 0) 1 0 [⟨false, 20, .brk⟩, ⟨true, 220, .markAfterBreak⟩] =
      [⟨false, 0, 20⟩, ⟨true, 20, 240⟩] := by decide

theorem witness_LiteralIntervalsMissTheBudget : (1 / 2 : Rat) < 1141 := by norm_num

end Sys2Proof.Tests
end

/-! ## PROOFS for the family 10_state.md

First the shared lemmas: the generator's half of the state (R36, R37), what a command can do, and `stepped`, which says
once what a step can be. Then one section for each group of statements. -/

section
namespace Sys2Proof.Machine

/-! ### The generator's registers, swapped for another state's -/

/-- `s` with the registers that G alone writes (R36) as they are in `g`. A step of G only moves these; a step of H neither
reads nor writes them. -/
def State.withGenerator (s g : State) : State :=
  { s with
    phase := g.phase, bitpos := g.bitpos, shift := g.shift, remain := g.remain, flast := g.flast, pend := g.pend,
    pin := g.pin, reload := g.reload }

@[simp] theorem State.withGenerator_self (s : State) : s.withGenerator s = s := rfl
@[simp] theorem State.withGenerator_params (s g : State) : (s.withGenerator g).params = s.params := rfl
@[simp] theorem State.withGenerator_rxQueue (s g : State) : (s.withGenerator g).rxQueue = s.rxQueue := rfl

@[simp] theorem State.withGenerator_dec (s g : State) : (s.withGenerator g).dec = s.dec := rfl

theorem State.withGenerator_sameHost (s g : State) : SameHost s (s.withGenerator g) := by constructor <;> rfl

theorem State.withGenerator_sameGenerator (s g : State) : SameGenerator g (s.withGenerator g) := by constructor <;> rfl

/-- States that agree on everything but the generator's registers differ by a swap of these. -/
theorem State.eq_withGenerator {s u : State} (hh : SameHost s u) (hp : u.params = s.params) (hq : u.rxQueue = s.rxQueue)
    (hi : u.inputs = s.inputs) (hd : u.draws = s.draws) : u = s.withGenerator u := by
  obtain ⟨hbuf, hblackout, hlast, htxen, hdec, hlastnop, hresp, hresetSeq⟩ := hh
  cases u
  simp_all [State.withGenerator]

theorem SameGenerator.eq_withGenerator {s t : State} (h : SameGenerator s t) : t = t.withGenerator s := by
  obtain ⟨hphase, hbitpos, hshift, hremain, hflast, hpend, hpin, hreload⟩ := h
  cases t
  simp_all [State.withGenerator]

/-- A tick moves the generator's registers only (R36). -/
theorem State.afterTick_eq_withGenerator (s : State) : s.afterTick = s.withGenerator s.afterTick := by
  unfold State.afterTick
  cases s.phase with
  | brk => rfl
  | markAfterBreak => rfl
  | startBit => rfl
  | dataBits => dsimp only; split <;> rfl
  | stopBits => simp only [endSlot_eq]; rfl
  | idle => simp only [idleNext_eq]; rfl

theorem State.afterTick_sameHost (s : State) : SameHost s s.afterTick :=
  s.afterTick_eq_withGenerator ▸ s.withGenerator_sameHost _

@[simp] theorem State.afterTick_params (s : State) : s.afterTick.params = s.params := by
  rw [s.afterTick_eq_withGenerator, State.withGenerator_params]

@[simp] theorem State.afterTick_rxQueue (s : State) : s.afterTick.rxQueue = s.rxQueue := by
  rw [s.afterTick_eq_withGenerator, State.withGenerator_rxQueue]

/-! ### Host effects and commands -/

theorem HostEffect.params {s u : State} (h : HostEffect s u) : u.params = s.params := by cases h <;> rfl
theorem HostEffect.lastnop {s u : State} (h : HostEffect s u) : u.lastnop = s.lastnop := by cases h <;> rfl
theorem HostEffect.resp {s u : State} (h : HostEffect s u) : u.resp = s.resp := by cases h <;> rfl
theorem HostEffect.resetSeq {s u : State} (h : HostEffect s u) : u.resetSeq = s.resetSeq := by cases h <;> rfl

/-- Everything a command that goes on can do: start RESET's writes, or complete with one host effect. -/
theorem exec_command_next {i : Instr} {s t : State} (hi : i.isCommand = true) (h : exec i s = .next t) :
    (i = .reset ∧ s.lastnop = true ∧ t = s.beginReset) ∨ ∃ u op r, HostEffect s u ∧ t = u.complete op r := by
  rcases exec_command hi s with ⟨hr, hn, he⟩ | ⟨u, op, r, hu, he⟩
  · cases he.symm.trans h
    exact .inl ⟨hr, hn, rfl⟩
  · cases he.symm.trans h
    exact .inr ⟨u, op, r, hu, rfl⟩

/-- RESET with the guard met starts its writes (R179, R186). -/
theorem exec_reset_guarded {s : State} (hn : s.lastnop = true) : exec .reset s = .next s.beginReset := by
  simp [exec, execReset, hn]

/-- RESET with the guard not met only answers (R179). -/
theorem exec_reset_unguarded {s : State} (hn : s.lastnop = false) : exec .reset s = .next (s.complete .reset [0xA3]) := by
  simp [exec, execReset, hn, execute]

/-- A completed command leaves `LASTNOP` 1 if it is NO_OPERATION and 0 otherwise (R171). RESET changes nothing there: with the
guard met that is left to its last write, and with the guard not met it is 0 already. -/
theorem exec_lastnop {i : Instr} {s t : State} (hi : i.isCommand = true) (h : exec i s = .next t) :
    (i = .reset ∧ t.lastnop = s.lastnop) ∨ (i ≠ .reset ∧ t.lastnop = decide (i = .noOperation)) := by
  cases i
  case tickBreak | tickMarkAfterBreak | tickStartBit | tickDataBit | tickLastDataBit | tickStopBits | tickIdle => cases hi
  case reset =>
    cases hn : s.lastnop with
    | true =>
      cases (exec_reset_guarded hn).symm.trans h
      exact .inl ⟨rfl, hn⟩
    | false =>
      cases (exec_reset_unguarded hn).symm.trans h
      exact .inl ⟨rfl, rfl⟩
  all_goals
    cases h
    exact .inr ⟨Instr.noConfusion, rfl⟩

/-- Of the commands SET_TX_START_CODE alone writes entry 0 of `BUF` (R49): the channel commands write at 1 and above. -/
theorem exec_entryZero {i : Instr} {s t : State} (hi : i.isCommand = true) (h : exec i s = .next t) :
    (∃ p, i = .setTxStartCode p ∧ t.buf.get 0 = p) ∨ t.buf.get 0 = s.buf.get 0 := by
  cases i
  case tickBreak | tickMarkAfterBreak | tickStartBit | tickDataBit | tickLastDataBit | tickStopBits | tickIdle => cases hi
  case reset =>
    cases hn : s.lastnop with
    | true =>
      cases (exec_reset_guarded hn).symm.trans h
      exact .inr rfl
    | false =>
      cases (exec_reset_unguarded hn).symm.trans h
      exact .inr rfl
  case setTxStartCode p =>
    cases h
    exact .inl ⟨p, rfl, Memory.get_set_same _ _ _⟩
  case setDmxChannelValueLow idx val =>
    cases h
    exact .inr (Memory.get_set_other _ _ (by rw [lowIndex_eq]; omega))
  case setDmxChannelValueHigh idx val =>
    cases h
    exact .inr (Memory.get_set_other _ _ (by rw [highIndex_eq]; omega))
  all_goals
    cases h
    exact .inr rfl

/-- A write of RESET sets entry 0 of `BUF` to 0x00 or leaves it alone (R179). -/
theorem ResetWrite.apply_entryZero (w : ResetWrite) (s : State) :
    (w.apply s).buf.get 0 = 0 ∨ (w.apply s).buf.get 0 = s.buf.get 0 := by
  cases w with
  | buf i =>
    show (s.buf.set i.val 0).get 0 = 0 ∨ (s.buf.set i.val 0).get 0 = s.buf.get 0
    rw [Memory.get_set]
    split
    · exact .inl rfl
    · exact .inr rfl
  | blackout => exact .inr rfl
  | last => exact .inr rfl
  | txen => exact .inr rfl

/-! ### One step, said once -/

/-- Everything one step that goes on can be, and when (R70, R228, R256). -/
inductive Stepped (s : State) : State → Prop where
  | powerOn (rst : s.moment.rst = true) : Stepped s (s.past s.waiting).powerOn
  | tick (noRst : s.moment.rst = false) (tick : s.moment.tick = true) : Stepped s (s.past s.waiting).afterTick
  | resetWrite (noRst : s.moment.rst = false) (noTick : s.moment.tick = false) (inProgress : s.resetSeq ≠ []) :
      Stepped s ((s.past s.waiting).resetStep s.moment.pick)
  | command {b : Byte} {bs : List Byte} {i : Instr} {t : State} (serves : ServesByte s b bs) (completes : Completes s b i)
      (isCommand : i.isCommand = true) (executes : exec i { s.past bs with dec := .awaitOpcode } = .next t) : Stepped s t
  | discarded {b : Byte} {bs : List Byte} (serves : ServesByte s b bs) : Stepped s (s.past bs)
  | waits {b : Byte} {bs : List Byte} {op : Opcode} {ps : List Byte} (serves : ServesByte s b bs)
      (feed : s.dec.feed b = (.awaitParams op ps, none)) : Stepped s { s.past bs with dec := .awaitParams op ps }
  | quiet (noRst : s.moment.rst = false) (noTick : s.moment.tick = false) : Stepped s (s.past s.waiting)

theorem State.arrived_eq_past (s : State) : s.arrived = s.past s.waiting := rfl

theorem State.arrived_takeByte {s : State} {b : Byte} {bs : List Byte} (h : s.waiting = b :: bs) :
    s.arrived.takeByte = s.past bs := by
  simp [State.arrived_eq_past, State.takeByte, State.past, h]

/-- A decode step that goes on executes, discards or waits. -/
theorem stepped_byte {s t : State} {b : Byte} {bs : List Byte} (hb : ServesByte s b bs)
    (h : hStep b (s.past bs) = .next t) : Stepped s t := by
  rcases hStep_cases b (s.past bs) with ⟨i, hf, hi, hx⟩ | ⟨-, -, hx⟩ | ⟨op, ps, hf, hx⟩
  · exact .command hb hf hi (hx.symm.trans h)
  · cases hx.symm.trans h
    exact .discarded hb
  · cases hx.symm.trans h
    exact .waits hb hf

/-- Every step that goes on is one of those listed. -/
theorem stepped {s t : State} (h : step s = .next t) : Stepped s t := by
  obtain ⟨hl, hs⟩ := step_next h
  rcases s.event_cases with ⟨he, hr⟩ | ⟨he, hr, ht⟩ | ⟨he, hr, ht, hq⟩ | ⟨b, bs, he, hr, ht, hq, hw⟩ | ⟨he, hr, ht, -⟩ <;>
    rw [he] at hs
  · cases hs
    exact .powerOn hr
  · cases (gStep_of_legal (s := s.arrived) hl).symm.trans hs
    exact .tick hr ht
  · cases hs
    exact .resetWrite hr ht hq
  · change hStep b s.arrived.takeByte = .next t at hs
    rw [State.arrived_takeByte (s := s) hw] at hs
    exact stepped_byte ⟨hl, hr, ht, hq, hw⟩ hs
  · cases hs
    exact .quiet hr ht

theorem State.resetStep_params (s : State) (pick : Nat) : (s.resetStep pick).params = s.params := by
  by_cases h : s.resetSeq = []
  · rw [State.resetStep_nil h]
  · obtain ⟨k, w, -, -, -, he⟩ := State.resetStep_cases h pick
    rw [he]
    split
    · exact (w.apply_effect _).params
    · exact (w.apply_effect _).params

/-- No step writes the parameters (R7). -/
theorem Stepped.params {s t : State} (h : Stepped s t) : t.params = s.params := by
  cases h with
  | powerOn => rfl
  | tick => exact State.afterTick_params _
  | resetWrite => exact State.resetStep_params _ _
  | command _ _ hi hx =>
    rcases exec_command_next hi hx with ⟨-, -, rfl⟩ | ⟨u, op, r, hu, rfl⟩
    · rfl
    · exact hu.params
  | discarded => rfl
  | waits => rfl
  | quiet => rfl

end Sys2Proof.Machine
end

/-! ### The invariants (O37, O38) -/

section
namespace Sys2Proof.Machine

/-- Settles O37, clause by clause at the values of R250. -/
theorem resetStateMeetsTheInvariant : Obligations.ResetStateMeetsTheInvariant where
  buf := rfl
  legal := rfl
  blackout := .inr rfl
  pendLow := fun _ => rfl
  pendHigh := by decide
  pendData := by decide
  dec := rfl
  resetGuard := by decide
  resetOnce := List.nodup_nil

/-- The values a power-on reset leaves open (R255) stand in no clause outside DataBits. -/
theorem State.powerOn_inv (s : State) : s.powerOn.Inv :=
  have h : State.reset.Inv := resetStateMeetsTheInvariant
  { h with pendData := fun hp => by cases hp }

section
variable {s : State} (h : s.Inv)
include h

/-! Updates that keep the invariants. -/

theorem State.Inv.past (q : List Byte) : (s.past q).Inv := { h with }

theorem State.Inv.beginInterval : s.beginInterval.Inv := { h with }

/-- The mask is one of two (R48), so a level computed with it is one of R47's. -/
theorem State.Inv.level_masked (v : Byte) (b : BitVec 3) :
    level v b s.blackout = level v b blackoutOn ∨ level v b s.blackout = level v b blackoutOff :=
  h.blackout.imp (congrArg (level v b)) (congrArg (level v b))

/-- Outside DataBits the next phase fixes the next level (R47). -/
theorem State.Inv.decideNext {p : Phase} (hp : p ≠ .dataBits) :
    (s.decideNext p (decide (p ≠ .brk ∧ p ≠ .startBit))).Inv :=
  { h with
    pendLow := by rintro (rfl | rfl) <;> rfl
    pendHigh := by rintro (rfl | rfl | rfl) <;> rfl
    pendData := fun hd => absurd hd hp }

theorem State.Inv.latch (v : Byte) :
    ({ s with shift := v, bitpos := 0 }.decideNext .dataBits (level v 0 s.blackout)).Inv :=
  { h with
    pendLow := by rintro (hp | hp) <;> cases hp
    pendHigh := by rintro (hp | hp | hp) <;> cases hp
    pendData := fun _ => h.level_masked v 0 }

theorem State.Inv.nextDataBit (hp : s.phase = .dataBits) : (nextDataBit s).Inv :=
  { h with
    pendLow := fun (hq : s.phase = _ ∨ s.phase = _) => by simp [hp] at hq
    pendHigh := fun (hq : s.phase = _ ∨ s.phase = _ ∨ s.phase = _) => by simp [hp] at hq
    pendData := fun _ => h.level_masked s.shift (s.bitpos + 1) }

/-- The cursor stays in range (R45): it is taken down by one while it is not zero, and else set to `LAST`. -/
theorem State.Inv.nextSlot : (nextSlot s).Inv := by
  have hl := s.legal_iff.mp h.legal
  unfold Machine.nextSlot
  split
  · exact { h with legal := (State.legal_iff _).mpr (by dsimp only; omega) }
  · next hr =>
    have hd : (s.remain - 1).toNat ≤ s.remain.toNat := by bv_omega
    exact { h with legal := (State.legal_iff _).mpr (by dsimp only; omega) }

theorem State.Inv.endSlot : (endSlot s).Inv := by
  unfold Machine.endSlot phaseAfterSlot
  split
  · split
    · exact h.nextSlot.decideNext (p := .brk) (by decide)
    · exact h.nextSlot.decideNext (p := .startBit) (by decide)
  · exact h.nextSlot.decideNext (p := .idle) (by decide)

theorem State.Inv.idleNext : (idleNext s).Inv := by
  unfold Machine.idleNext
  split
  · exact h.decideNext (p := .startBit) (by decide)
  · exact h.decideNext (p := .idle) (by decide)

theorem State.Inv.afterTick : s.afterTick.Inv := by
  unfold State.afterTick
  cases hp : s.phase with
  | brk => exact h.beginInterval.decideNext (p := .markAfterBreak) (by decide)
  | markAfterBreak => exact h.beginInterval.decideNext (p := .startBit) (by decide)
  | startBit => exact h.beginInterval.latch _
  | dataBits =>
    dsimp only
    split
    · exact h.beginInterval.nextDataBit hp
    · exact h.beginInterval.decideNext (p := .stopBits) (by decide)
  | stopBits => exact h.beginInterval.endSlot
  | idle => exact h.beginInterval.idleNext

/-- The host's writes are to existing entries, to the two masks and to `LAST` in range (R45, R48, R65). -/
theorem State.Inv.hostEffect {u : State} (hu : HostEffect s u) : u.Inv := by
  cases hu with
  | nothing => exact h
  | entry a v ha => exact { h with buf := Memory.wf_set v h.buf ha }
  | txen b => exact { h with }
  | mask m hm => exact { h with blackout := hm }
  | last n hn =>
    obtain ⟨-, -, hf⟩ := s.legal_iff.mp h.legal
    exact { h with legal := (State.legal_iff _).mpr ⟨hn.1, hn.2, hf⟩ }

theorem State.Inv.complete (op : Opcode) (r : List Byte) (hn : s.resetSeq = []) : (s.complete op r).Inv :=
  { h with resetGuard := fun hne => absurd hn hne }

theorem State.Inv.beginReset (hn : s.lastnop = true) (hd : s.dec = .awaitOpcode) : s.beginReset.Inv :=
  { h with
    resetGuard := fun _ => ⟨hn, hd⟩
    resetOnce := ResetWrite.all_nodup }

/-- With no RESET in progress the decoder may move on (R33). -/
theorem State.Inv.setDec {d : Dec} (hd : d.wellFormed = true) (hn : s.resetSeq = []) : ({ s with dec := d } : State).Inv :=
  { h with
    dec := hd
    resetGuard := fun hne => absurd hn hne }

/-- A write struck off the list leaves the others without repeats, and the guard standing. -/
theorem State.Inv.eraseWrite (hn : s.resetSeq ≠ []) (k : Nat) : ({ s with resetSeq := s.resetSeq.eraseIdx k } : State).Inv :=
  { h with
    resetGuard := fun _ => h.resetGuard hn
    resetOnce := h.resetOnce.sublist (List.eraseIdx_sublist _ _) }

theorem State.Inv.resetStep (hn : s.resetSeq ≠ []) (pick : Nat) : (s.resetStep pick).Inv := by
  obtain ⟨k, w, -, -, -, he⟩ := State.resetStep_cases hn pick
  have hw := (h.eraseWrite hn k).hostEffect (w.apply_effect _)
  rw [he]
  split
  · next hlast => exact hw.complete _ _ ((w.apply_resetSeq _).trans hlast)
  · exact hw

theorem State.Inv.command {i : Instr} {t : State} (hi : i.isCommand = true) (hn : s.resetSeq = [])
    (hd : s.dec = .awaitOpcode) (hx : exec i s = .next t) : t.Inv := by
  rcases exec_command_next hi hx with ⟨-, hg, rfl⟩ | ⟨u, op, r, hu, rfl⟩
  · exact h.beginReset hg hd
  · exact (h.hostEffect hu).complete op r (hu.resetSeq.trans hn)

theorem State.Inv.stepped {t : State} (ht : Stepped s t) : t.Inv := by
  cases ht with
  | powerOn => exact State.powerOn_inv _
  | tick => exact (h.past _).afterTick
  | resetWrite _ _ hp => exact (h.past _).resetStep hp _
  | command hb _ hi hx => exact ((h.past _).setDec rfl hb.noReset).command hi hb.noReset rfl hx
  | discarded => exact h.past _
  | @waits b _ _ _ hb hf =>
    have hd := Dec.feed_wellFormed b h.dec
    rw [hf] at hd
    exact (h.past _).setDec hd hb.noReset
  | quiet => exact h.past _

end

/-- Settles O38: each kind of step keeps the invariants. -/
theorem stepKeepsTheInvariant : Obligations.StepKeepsTheInvariant :=
  fun _ _ hs h => hs.stepped (stepped h)

end Sys2Proof.Machine
end

/-! ### Who writes and reads which registers (O41, O42, O44) -/

section
namespace Sys2Proof.Machine

/-- Settles O41: a tick moves the generator's registers only. -/
theorem tickLeavesTheHostRegisters : Obligations.TickLeavesTheHostRegisters := by
  intro s t hr ht h
  have hl := (step_next h).1
  have he := s.event_eq_tick_iff.mpr ⟨hr, ht⟩
  have hg : step s = .next (s.past s.waiting).afterTick := by
    rw [step_of_legal hl, he]
    exact gStep_of_legal (s := s.arrived) hl
  cases hg.symm.trans h
  exact ⟨{ (s.past s.waiting).afterTick_sameHost with }, State.afterTick_params _, State.afterTick_rxQueue _⟩

/-! A step of the host commutes with `State.withGenerator`. With the state's own registers swapped in, that says that it writes
none of them; with other values, that it reads none. -/

/-- A command does the same whatever the generator's registers hold (R37). -/
theorem exec_withGenerator {i : Instr} {s t : State} (hi : i.isCommand = true) (h : exec i s = .next t) (g : State) :
    exec i (s.withGenerator g) = .next (t.withGenerator g) := by
  cases i
  case tickBreak | tickMarkAfterBreak | tickStartBit | tickDataBit | tickLastDataBit | tickStopBits | tickIdle => cases hi
  case reset =>
    cases hn : s.lastnop with
    | true =>
      cases (exec_reset_guarded hn).symm.trans h
      exact exec_reset_guarded (s := s.withGenerator g) hn
    | false =>
      cases (exec_reset_unguarded hn).symm.trans h
      exact exec_reset_unguarded (s := s.withGenerator g) hn
  all_goals
    cases h
    rfl

theorem ResetWrite.apply_withGenerator (w : ResetWrite) (s g : State) :
    w.apply (s.withGenerator g) = (w.apply s).withGenerator g := by cases w <;> rfl

theorem State.resetStep_withGenerator (s g : State) (pick : Nat) :
    (s.withGenerator g).resetStep pick = (s.resetStep pick).withGenerator g := by
  have hs : (s.withGenerator g).resetSeq = s.resetSeq := rfl
  unfold State.resetStep
  rw [hs]
  cases s.resetSeq[pickIndex pick s.resetSeq.length]? with
  | none => rfl
  | some w =>
    have hw := w.apply_withGenerator { s with resetSeq := s.resetSeq.eraseIdx (pickIndex pick s.resetSeq.length) } g
    dsimp only
    split
    · exact congrArg (State.complete · .reset [0xA2]) hw
    · exact hw

/-- A decode step answers, and does the same whatever the generator's registers hold. -/
theorem hStep_withGenerator (b : Byte) (s : State) :
    ∃ t, hStep b s = .next t ∧ ∀ g, hStep b (s.withGenerator g) = .next (t.withGenerator g) := by
  rcases Dec.feed_cases s.dec b with ⟨i, hf, hi, -⟩ | ⟨-, -, hf⟩ | ⟨op, ps, hf, -⟩
  · obtain ⟨t, ht⟩ : ∃ t, exec i { s with dec := .awaitOpcode } = .next t := by
      rcases exec_command hi { s with dec := .awaitOpcode } with ⟨-, -, he⟩ | ⟨u, op, r, -, he⟩
      · exact ⟨_, he⟩
      · exact ⟨_, he⟩
    refine ⟨t, by simp only [hStep, hf, ht], fun g => ?_⟩
    simp only [hStep, State.withGenerator_dec, hf]
    exact exec_withGenerator hi ht g
  · exact ⟨s, by simp only [hStep, hf], fun g => by simp only [hStep, State.withGenerator_dec, hf]⟩
  · refine ⟨{ s with dec := .awaitParams op ps }, by simp only [hStep, hf], fun g => ?_⟩
    simp only [hStep, State.withGenerator_dec, hf]
    rfl

/-- A step without a tick and without a power-on reset answers, and does the same whatever the generator's registers hold, as
long as the state is legal (R37, R129). -/
theorem step_withGenerator {s : State} (hl : s.legal = true) (hr : s.moment.rst = false) (ht : s.moment.tick = false) :
    ∃ t, step s = .next t ∧ ∀ g, (s.withGenerator g).legal = true → step (s.withGenerator g) = .next (t.withGenerator g) := by
  have hg (g : State) (hlg : (s.withGenerator g).legal = true) :
      step (s.withGenerator g) = (s.arrived.withGenerator g).serve s.event := step_of_legal hlg
  rw [step_of_legal hl]
  rcases s.event_cases with ⟨-, hr'⟩ | ⟨-, -, ht'⟩ | ⟨he, -⟩ | ⟨b, bs, he, -⟩ | ⟨he, -⟩
  · simp [hr] at hr'
  · simp [ht] at ht'
  · refine ⟨_, by rw [he]; rfl, fun g hlg => ?_⟩
    rw [hg g hlg, he]
    exact congrArg _ (State.resetStep_withGenerator _ g _)
  · obtain ⟨t, hs, hsg⟩ := hStep_withGenerator b s.arrived.takeByte
    refine ⟨t, by rw [he]; exact hs, fun g hlg => ?_⟩
    rw [hg g hlg, he]
    exact hsg g
  · refine ⟨_, by rw [he]; rfl, fun g hlg => ?_⟩
    rw [hg g hlg, he]
    rfl

/-- A step without a tick and without a power-on reset writes none of the generator's registers. -/
theorem step_sameGenerator {s t : State} (hr : s.moment.rst = false) (ht : s.moment.tick = false) (h : step s = .next t) :
    SameGenerator s t := by
  have hl := (step_next h).1
  obtain ⟨t', hs, hsg⟩ := step_withGenerator hl hr ht
  cases h.symm.trans (hsg s hl)
  exact t'.withGenerator_sameGenerator s

/-- Settles O42: the host's step commutes with swapping the generator's registers; and a quiet moment only passes. -/
theorem onlyATickMovesTheGenerator : Obligations.OnlyATickMovesTheGenerator := by
  refine ⟨?_, ?_, ?_⟩
  · intro s t hr ht h
    exact ⟨step_sameGenerator hr ht h, (stepped h).params⟩
  · intro s u hl hlu hr ht hh hp hq hi hd
    have hu := State.eq_withGenerator hh hp hq hi hd
    obtain ⟨t, hs, hsg⟩ := step_withGenerator hl hr ht
    have hsu := hsg u (hu ▸ hlu)
    rw [← hu] at hsu
    exact ⟨t, t.withGenerator u, hs, hsu, t.withGenerator_sameHost u, rfl⟩
  · intro s hl hr ht hn hw
    rw [step_of_legal hl]
    rcases s.event_cases with ⟨-, hr'⟩ | ⟨-, -, ht'⟩ | ⟨-, -, -, hn'⟩ | ⟨b, bs, -, -, -, -, hw'⟩ | ⟨he, -⟩
    · simp [hr] at hr'
    · simp [ht] at ht'
    · exact absurd hn hn'
    · cases hw.symm.trans hw'
    · rw [he, ← hw]
      rfl

/-- `s` with other values in `BITPOS` and `SHIFT`. -/
def State.withBits (s : State) (b : BitVec 3) (v : Byte) : State := { s with bitpos := b, shift := v }

/-- Outside DataBits a tick reads neither `BITPOS` nor `SHIFT`; of these ticks the StartBit step alone enters DataBits, and it
writes both registers (R46). -/
theorem State.afterTick_withBits (s : State) (b : BitVec 3) (v : Byte) (hp : s.phase ≠ .dataBits) :
    s.afterTick = (s.withBits b v).afterTick.withBits s.afterTick.bitpos s.afterTick.shift ∧
    (s.afterTick.phase = .dataBits → s.afterTick = (s.withBits b v).afterTick) := by
  have hb : (s.withBits b v).phase = s.phase := rfl
  unfold State.afterTick
  rw [hb]
  cases hq : s.phase with
  | brk => exact ⟨rfl, fun h => by cases h⟩
  | markAfterBreak => exact ⟨rfl, fun h => by cases h⟩
  | startBit => exact ⟨rfl, fun _ => rfl⟩
  | dataBits => exact absurd hq hp
  | stopBits =>
    simp only [endSlot_eq, phaseAfterSlot]
    refine ⟨rfl, fun h => ?_⟩
    split at h
    · split at h <;> cases h
    · cases h
  | idle =>
    simp only [idleNext_eq]
    refine ⟨rfl, fun h => ?_⟩
    split at h <;> cases h

/-- Settles O44: the step either is a tick outside DataBits, or is a power-on reset, which reads neither register, or is the
host's, which reads and writes neither. -/
theorem bitRegistersAreNotReadOutsideDataBits : Obligations.BitRegistersAreNotReadOutsideDataBits := by
  intro s b v hl hp
  have hs := step_of_legal hl
  have hu : step (s.withBits b v) = (s.arrived.withBits b v).serve s.event := step_of_legal (s := s.withBits b v) hl
  cases hr : s.moment.rst with
  | true =>
    rw [s.event_eq_powerOn_iff.mpr hr] at hs hu
    exact ⟨_, _, hs, hu, rfl, fun _ => rfl⟩
  | false =>
    cases ht : s.moment.tick with
    | true =>
      rw [s.event_eq_tick_iff.mpr ⟨hr, ht⟩] at hs hu
      exact ⟨_, _, hs.trans (gStep_of_legal (s := s.arrived) hl),
        hu.trans (gStep_of_legal (s := s.arrived.withBits b v) hl), s.arrived.afterTick_withBits b v hp⟩
    | false =>
      obtain ⟨t, hst, hsg⟩ := step_withGenerator hl hr ht
      have hg := step_sameGenerator hr ht hst
      refine ⟨t, t.withGenerator (s.withBits b v), hst, hsg (s.withBits b v) hl, ?_, fun h => absurd (hg.phase ▸ h) hp⟩
      rw [hg.bitpos, hg.shift]
      exact hg.eq_withGenerator

end Sys2Proof.Machine
end

/-! ### What can change entry 0, `LASTNOP` and `RESP` (O45, O47, O48) -/

section
namespace Sys2Proof.Machine

/-- What a step of a RESET in progress does to `LASTNOP` and `RESP`: with the last write it clears the one and answers 0xA2, and
before that it touches neither (R186, log 10). -/
theorem State.resetStep_responds {s : State} (h : s.resetSeq ≠ []) (pick : Nat) :
    (s.resetSeq.length = 1 ∧ (s.resetStep pick).resetSeq = [] ∧ (s.resetStep pick).lastnop = false ∧
      (s.resetStep pick).resp = s.resp ++ [0xA2]) ∨
    ((s.resetStep pick).lastnop = s.lastnop ∧ (s.resetStep pick).resp = s.resp) := by
  obtain ⟨k, w, hk, -, -, he⟩ := State.resetStep_cases h pick
  have hw := w.apply_effect { s with resetSeq := s.resetSeq.eraseIdx k }
  rw [he]
  split
  · next hlast =>
    have hlen := List.length_eraseIdx_of_lt hk
    rw [hlast, List.length_nil] at hlen
    exact .inl ⟨by omega, hw.resetSeq.trans hlast, rfl, congrArg (· ++ [0xA2]) hw.resp⟩
  · exact .inr ⟨hw.lastnop, hw.resp⟩

theorem State.resetStep_entryZero {s : State} (h : s.resetSeq ≠ []) (pick : Nat) :
    (s.resetStep pick).buf.get 0 = 0 ∨ (s.resetStep pick).buf.get 0 = s.buf.get 0 := by
  obtain ⟨k, w, -, -, -, he⟩ := State.resetStep_cases h pick
  have hw := w.apply_entryZero { s with resetSeq := s.resetSeq.eraseIdx k }
  rw [he]
  split
  · exact hw
  · exact hw

/-- Settles O45, by the kinds of step. -/
theorem onlyTheStartCodeCommandSetsEntryZero : Obligations.OnlyTheStartCodeCommandSetsEntryZero := by
  intro s t h hne
  cases stepped h with
  | powerOn hr => exact .inr ⟨.inr hr, rfl⟩
  | tick => exact absurd (congrArg (Memory.get · 0) (s.past s.waiting).afterTick_sameHost.buf) hne
  | resetWrite _ _ hp =>
    rcases State.resetStep_entryZero (s := s.past s.waiting) hp s.moment.pick with hz | hz
    · exact .inr ⟨.inl hp, hz⟩
    · exact absurd hz hne
  | command hb hc hi hx =>
    rcases exec_entryZero hi hx with ⟨p, rfl, hz⟩ | hz
    · exact .inl ⟨_, _, p, hb, hc, hz⟩
    · exact absurd hz hne
  | discarded => exact absurd rfl hne
  | waits => exact absurd rfl hne
  | quiet => exact absurd rfl hne

/-- What changes `LASTNOP`: a power-on reset, the last write of a RESET, and the completion of a command that is not RESET
(R34, R171). -/
theorem Stepped.lastnop {s t : State} (h : Stepped s t) :
    (s.moment.rst = true ∧ t.lastnop = false) ∨
    (s.moment.rst = false ∧ s.moment.tick = false ∧ s.resetSeq.length = 1 ∧ t.resetSeq = [] ∧ t.lastnop = false ∧
      t.resp = s.resp ++ [0xA2]) ∨
    (∃ b bs i, ServesByte s b bs ∧ Completes s b i ∧ i.isCommand = true ∧ i ≠ .reset ∧
      t.lastnop = decide (i = .noOperation)) ∨
    t.lastnop = s.lastnop := by
  cases h with
  | powerOn hr => exact .inl ⟨hr, rfl⟩
  | tick => exact .inr (.inr (.inr (s.past s.waiting).afterTick_sameHost.lastnop))
  | resetWrite hr ht hp =>
    rcases State.resetStep_responds (s := s.past s.waiting) hp s.moment.pick with ⟨hone, hnil, hn, hresp⟩ | ⟨hn, -⟩
    · exact .inr (.inl ⟨hr, ht, hone, hnil, hn, hresp⟩)
    · exact .inr (.inr (.inr hn))
  | command hb hc hi hx =>
    rcases exec_lastnop hi hx with ⟨-, hn⟩ | ⟨hne, hn⟩
    · exact .inr (.inr (.inr hn))
    · exact .inr (.inr (.inl ⟨_, _, _, hb, hc, hi, hne, hn⟩))
  | discarded => exact .inr (.inr (.inr rfl))
  | waits => exact .inr (.inr (.inr rfl))
  | quiet => exact .inr (.inr (.inr rfl))

/-- Settles O47: both directions are read off what changes `LASTNOP`. -/
theorem onlyNoOperationSetsTheGuard : Obligations.OnlyNoOperationSetsTheGuard := by
  constructor
  · intro s t h hs ht
    rcases (stepped h).lastnop with ⟨-, hn⟩ | ⟨-, -, -, -, hn, -⟩ | ⟨b, bs, i, hb, hc, -, -, hn⟩ | hn <;> rw [ht] at hn
    · cases hn
    · cases hn
    · obtain rfl := of_decide_eq_true hn.symm
      exact ⟨b, bs, hb, hc⟩
    · cases hn.trans hs
  · intro s t h hs ht
    rcases (stepped h).lastnop with ⟨hr, -⟩ | ⟨hr, htick, hone, hnil, -, hresp⟩ | ⟨b, bs, i, hb, hc, hi, hne, hn⟩ | hn
    · exact .inr (.inr hr)
    · exact .inr (.inl ⟨hr, htick, hone, hnil, hresp⟩)
    · rw [ht] at hn
      exact .inl ⟨b, bs, i, hb, hc, hi, of_decide_eq_false hn.symm, hne⟩
    · cases ht.symm.trans (hn.trans hs)

/-- Settles O48, by the kinds of step: a command appends its response, the last write of a RESET its own. -/
theorem responsesAreOnlyAppended : Obligations.ResponsesAreOnlyAppended := by
  intro s t hr h
  have unchanged {u : State} (hu : u.resp = s.resp) : ∃ r, u.resp = s.resp ++ r := ⟨[], by rw [hu, List.append_nil]⟩
  cases stepped h with
  | powerOn hr' => simp [hr] at hr'
  | tick => exact unchanged (s.past s.waiting).afterTick_sameHost.resp
  | resetWrite _ _ hp =>
    rcases State.resetStep_responds (s := s.past s.waiting) hp s.moment.pick with ⟨-, -, -, hresp⟩ | ⟨-, hresp⟩
    · exact ⟨_, hresp⟩
    · exact unchanged hresp
  | command _ _ hi hx =>
    rcases exec_command_next hi hx with ⟨-, -, rfl⟩ | ⟨u, op, r, hu, rfl⟩
    · exact unchanged rfl
    · exact ⟨r, congrArg (· ++ r) hu.resp⟩
  | discarded => exact unchanged rfl
  | waits => exact unchanged rfl
  | quiet => exact unchanged rfl

end Sys2Proof.Machine
end

/-! ### The canonical form of the Channel Buffer (O49) -/

section
namespace Sys2Proof.Machine

/-- A memory that is canonical from `lo` on reads as 0x00 below `lo`. -/
theorem Memory.le_of_get_ne_zero {lo a : Nat} {m : Memory} (h : m.wfFrom lo = true) (ha : m.get a ≠ 0) : lo ≤ a := by
  induction m generalizing lo with
  | nil => exact absurd rfl ha
  | cons c m ih =>
    obtain ⟨k, w⟩ := c
    obtain ⟨hlo, -, -, hm⟩ := Memory.wfFrom_cons.mp h
    rw [Memory.get_cons] at ha
    split at ha
    · omega
    · have := ih hm ha
      omega

theorem Memory.get_eq_zero_of_lt {lo a : Nat} {m : Memory} (h : m.wfFrom lo = true) (ha : a < lo) : m.get a = 0 :=
  by_contra fun hne => Nat.not_le.mpr ha (Memory.le_of_get_ne_zero h hne)

/-- The first index listed is at or below every index that does not read as 0x00. -/
theorem Memory.head_le {lo k a : Nat} {w : Byte} {m : Memory} (h : Memory.wfFrom lo ((k, w) :: m) = true)
    (ha : Memory.get ((k, w) :: m) a ≠ 0) : k ≤ a := by
  obtain ⟨-, hk, hw, hm⟩ := Memory.wfFrom_cons.mp h
  exact Memory.le_of_get_ne_zero (Memory.wfFrom_cons.mpr ⟨Nat.le_refl k, hk, hw, hm⟩) ha

/-- Two canonical memories that read the same list the same, by induction along both: the first indices are each at or below
the other, the first entries are then read at the same index, and the rests read the same, as 0x00 at that index. -/
theorem Memory.eq_of_get_eq {lo : Nat} {m m' : Memory} (h : m.wfFrom lo = true) (h' : m'.wfFrom lo = true)
    (hget : ∀ a, a < bufSize → m.get a = m'.get a) : m = m' := by
  induction m generalizing lo m' with
  | nil =>
    cases m' with
    | nil => rfl
    | cons c' m' =>
      obtain ⟨k', w'⟩ := c'
      obtain ⟨-, hk, hw, -⟩ := Memory.wfFrom_cons.mp h'
      exact absurd (by simpa [Memory.get_cons] using (hget _ hk).symm) hw
  | cons c m ih =>
    obtain ⟨k, w⟩ := c
    obtain ⟨hlo, hk, hw, hm⟩ := Memory.wfFrom_cons.mp h
    have hkw := hget k hk
    cases m' with
    | nil => exact absurd (by simpa [Memory.get_cons] using hkw) hw
    | cons c' m' =>
      obtain ⟨k', w'⟩ := c'
      obtain ⟨-, hk', hw', hm'⟩ := Memory.wfFrom_cons.mp h'
      have hkw' := hget k' hk'
      have hle' : k' ≤ k := Memory.head_le h' (by rw [← hkw]; simpa [Memory.get_cons] using hw)
      have hle : k ≤ k' := Memory.head_le h (by rw [hkw']; simpa [Memory.get_cons] using hw')
      obtain rfl := Nat.le_antisymm hle hle'
      obtain rfl : w = w' := by simpa [Memory.get_cons] using hkw
      have hrest : m = m' := ih hm hm' fun a ha => by
        by_cases hak : a = k
        · rw [Memory.get_eq_zero_of_lt hm (by omega), Memory.get_eq_zero_of_lt hm' (by omega)]
        · simpa [Memory.get_cons, hak] using hget a ha
      rw [hrest]

/-- Settles O49: the canonical form is fixed by what it reads at every index. -/
theorem equalContentsAreEqualBuffers : Obligations.EqualContentsAreEqualBuffers :=
  fun _ _ h h' hget => Memory.eq_of_get_eq h h' fun a ha => hget a (Nat.le_of_lt_succ ha)

end Sys2Proof.Machine
end

/-! ## PROOFS for the family 20_memory.md -/

/-! ### Repeated commands (O21) -/

section
namespace Sys2Proof.Machine

/-- A command given twice leaves what it leaves when given once, but for the responses, if the second time it only completes
(R171). -/
theorem exec_twice {i : Instr} {op : Opcode} {r : List Byte} {s u : State} (first : exec i s = .next (u.complete op r))
    (second : exec i (u.complete op r) = .next ((u.complete op r).complete op r)) :
    ∃ t t', exec i s = .next t ∧ exec i t = .next t' ∧ t' = { t with resp := t'.resp } :=
  ⟨_, _, first, second, rfl⟩

/-- EXECUTE of a write that was done already only completes (R69). -/
theorem execute_writeBuf_again (s : State) (a : Nat) (v : Byte) (op : Opcode) (r : List Byte) :
    execute op (fun t => t.writeBuf a v) r ((s.writeBuf a v).complete op r) =
      .next (((s.writeBuf a v).complete op r).complete op r) := by
  simp only [execute, State.writeBuf, State.complete, Memory.set_set]

/-- Settles O21, command by command: what the command writes, it finds written when it is given again. -/
theorem repeatedCommandChangesOnlyResponses : Obligations.RepeatedCommandChangesOnlyResponses := by
  intro i s hi hne
  cases i
  case tickBreak | tickMarkAfterBreak | tickStartBit | tickDataBit | tickLastDataBit | tickStopBits | tickIdle => cases hi
  case reset => exact absurd rfl hne
  case setTxStartCode p => exact exec_twice rfl (execute_writeBuf_again s startCodeIndex p _ _)
  case setDmxChannelValueLow idx val => exact exec_twice rfl (execute_writeBuf_again s (lowIndex idx) val _ _)
  case setDmxChannelValueHigh idx val => exact exec_twice rfl (execute_writeBuf_again s (highIndex idx) val _ _)
  case versionRequest | noOperation => exact exec_twice (s := s) rfl rfl
  case turnTxOn | turnTxOff | turnOnBlackout | turnOffBlackout => exact exec_twice (s := s) rfl rfl
  case setLastTxCodeLow p | setLastTxCodeHigh p => exact exec_twice (s := s) rfl rfl

end Sys2Proof.Machine
end

/-! ### What a tick reads (O43) -/

section
namespace Sys2Proof.Machine

/-! Each part of a tick keeps two states the same in the generator's registers, given that they agree on the shared registers
that this part reads (R68). -/

/-- The start of an interval reads the parameters (R120, R128). -/
theorem SameGenerator.beginInterval {s u : State} (h : SameGenerator s u) (hp : u.params = s.params) :
    SameGenerator s.beginInterval u.beginInterval :=
  { h with
    pin := h.pend
    reload := by simp only [State.beginInterval_reload, hp, h.phase] }

/-- The choice of the next phase and level reads no register. -/
theorem SameGenerator.decideNext {s u : State} (h : SameGenerator s u) (p : Phase) (l : Level) :
    SameGenerator (s.decideNext p l) (u.decideNext p l) :=
  { h with phase := rfl, pend := rfl }

/-- The latching of a byte reads no register but the entry of `BUF` it comes from (R124). -/
theorem SameGenerator.latch {s u : State} (h : SameGenerator s u) (v : Byte) :
    SameGenerator { s with shift := v, bitpos := 0 } { u with shift := v, bitpos := 0 } :=
  { h with shift := rfl, bitpos := rfl }

/-- The next data bit reads `BLACKOUT` (R126). -/
theorem SameGenerator.nextDataBit {s u : State} (h : SameGenerator s u) (hb : u.blackout = s.blackout) :
    SameGenerator (nextDataBit s) (nextDataBit u) :=
  { h with
    bitpos := congrArg (· + 1) h.bitpos
    pend := by simp only [Machine.nextDataBit, h.shift, h.bitpos, hb] }

/-- The end of a slot reads `TXEN`, and `LAST` where it ends the frame too (R130). -/
theorem SameGenerator.endSlot {s u : State} (h : SameGenerator s u) (hlast : s.remain = 0 → u.last = s.last)
    (htxen : u.txen = s.txen) : SameGenerator (endSlot s) (endSlot u) := by
  have sampled (x : Word10) : (if s.remain = 0 then u.last else x) = if s.remain = 0 then s.last else x :=
    ite_congr rfl hlast fun _ => rfl
  rw [endSlot_eq, endSlot_eq]
  exact { h with
    phase := by simp only [phaseAfterSlot, h.remain, htxen]
    remain := by simp only [h.remain, sampled]
    flast := by simp only [h.remain, h.flast, sampled]
    pend := by simp only [htxen] }

/-- The Idle step reads `TXEN` (R131). -/
theorem SameGenerator.idleNext {s u : State} (h : SameGenerator s u) (htxen : u.txen = s.txen) :
    SameGenerator (idleNext s) (idleNext u) := by
  rw [idleNext_eq, idleNext_eq]
  exact { h with
    phase := by simp only [htxen]
    pend := by simp only [htxen] }

theorem SameGenerator.slotIndex {s u : State} (h : SameGenerator s u) : u.slotIndex = s.slotIndex := by
  simp only [State.slotIndex, h.flast, h.remain]

/-- Settles O43, by the phases of the tick. -/
theorem tickReadsOnlyItsOperands : Obligations.TickReadsOnlyItsOperands := by
  intro s u hs hu hg hparams hbuf hblackout hlast htxen
  refine ⟨_, _, gStep_of_legal hs, gStep_of_legal hu, ?_⟩
  have hi := hg.beginInterval hparams
  unfold State.afterTick
  rw [hg.phase]
  cases hp : s.phase with
  | brk => exact hi.decideNext _ _
  | markAfterBreak => exact hi.decideNext _ _
  | startBit =>
    dsimp only
    rw [hg.slotIndex, hbuf hp, hblackout (.inl hp)]
    exact (hi.latch _).decideNext _ _
  | dataBits =>
    dsimp only
    rw [hg.bitpos]
    split
    · next hlt => exact hi.nextDataBit (hblackout (.inr ⟨hp, hlt⟩))
    · exact hi.decideNext _ _
  | stopBits => exact hi.endSlot (hlast hp) (htxen (.inl hp))
  | idle => exact hi.idleNext (htxen (.inr hp))

end Sys2Proof.Machine
end

/-! ### The order of a write and the latch (O50) -/

section
namespace Sys2Proof.Machine

/-- The StartBit step latches the entry of `BUF` of the slot being sent (R124). -/
theorem State.afterTick_shift_of_startBit {s : State} (hp : s.phase = .startBit) :
    s.afterTick.shift = s.buf.get s.slotIndex := by
  simp [State.afterTick, hp]

/-- A StartBit step that finds entry `a` as in `m` latches the value it has there. -/
theorem latches_get (m : Memory) (a : Nat) : Latches m a (m.get a) := by
  intro u hl hp ha hm
  refine ⟨_, gStep_of_legal hl, ?_⟩
  rw [State.afterTick_shift_of_startBit hp, ha, hm]

/-- An entry just written is what its slot's StartBit steps latch. -/
theorem latches_set (m : Memory) (a : Nat) (v : Byte) : Latches (m.set a v) a v := by
  simpa using latches_get (m.set a v) a

/-- Settles O50: the tick latches what the entry holds when it comes, and leaves `BUF` to the host. -/
theorem latchOrderDecidesTheSlot : Obligations.LatchOrderDecidesTheSlot := by
  intro s v hl hp
  constructor
  · obtain ⟨t, ht, hshift⟩ := latches_set s.buf s.slotIndex v (s.writeBuf s.slotIndex v) hl hp rfl rfl
    cases (gStep_of_legal (s := s.writeBuf s.slotIndex v) hl).symm.trans ht
    exact ⟨_, ht, hshift, by rw [(State.afterTick_sameHost _).buf]; exact Memory.get_set_same _ _ _⟩
  · exact ⟨_, gStep_of_legal hl, State.afterTick_shift_of_startBit hp, Memory.get_set_same _ _ _, latches_set _ _ _⟩

end Sys2Proof.Machine
end

/-! ## PROOFS for the family 30_encoding.md -/

/-! ### Whole streams (O4)

A stream is decoded byte by byte, so what one decode step keeps, a whole stream keeps: the bytes, the form of `DEC`, and what
an item may be. -/

section
namespace Sys2Proof
open Machine

/-- A byte is recognised exactly if it stands in R93's list. -/
theorem Opcode.ofByte_isSome_iff (b : Byte) : (Opcode.ofByte b).isSome = true ↔ b ∈ opcodeBytes := by
  have hall : opcodeBytes = Opcode.all.map Opcode.code := rfl
  simp [Opcode.ofByte, hall]

theorem Opcode.ofByte_eq_none_iff (b : Byte) : Opcode.ofByte b = none ↔ b ∉ opcodeBytes := by
  rw [← Opcode.ofByte_isSome_iff, Option.not_isSome_iff_eq_none]

/-- What R103 has an item be: a host command, or a byte that is no opcode. -/
def Item.Genuine : Item → Prop
  | .command i => i.isCommand = true
  | .discarded b => b ∉ opcodeBytes

@[simp] theorem decodeStream_nil (d : Dec) : decodeStream d [] = ([], d) := rfl

/-- The first byte's decode step, then the rest of the stream from the state it leaves. -/
theorem decodeStream_cons (d : Dec) (b : Byte) (bs : List Byte) :
    decodeStream d (b :: bs) =
      ((d.feed b).2.toList ++ (decodeStream (d.feed b).1 bs).1, (decodeStream (d.feed b).1 bs).2) := by
  rcases hf : d.feed b with ⟨d', _ | it⟩
  · simp [decodeStream, hf]
  · simp [decodeStream, hf]

/-- A decode step loses no byte: the pending bytes and the new one are the item's bytes and the bytes then pending. -/
theorem Dec.feed_bytes (d : Dec) (b : Byte) :
    d.bytes ++ [b] = (d.feed b).2.toList.flatMap Item.bytes ++ (d.feed b).1.bytes := by
  rcases Dec.feed_cases d b with ⟨i, hf, -, he⟩ | ⟨rfl, -, hf⟩ | ⟨op, ps, hf, he, -⟩
  · simp [hf, Item.bytes, Dec.bytes, he]
  · simp [hf, Item.bytes, Dec.bytes]
  · simp [hf, Dec.bytes, he]

theorem Dec.feed_genuine {d : Dec} {b : Byte} {it : Item} (h : it ∈ (d.feed b).2.toList) : it.Genuine := by
  rcases Dec.feed_cases d b with ⟨i, hf, hi, -⟩ | ⟨-, ho, hf⟩ | ⟨op, ps, hf, -⟩ <;> rw [hf] at h
  · obtain rfl : it = .command i := by simpa using h
    exact hi
  · obtain rfl : it = .discarded b := by simpa using h
    exact (Opcode.ofByte_eq_none_iff b).mp ho
  · cases h

theorem decodeStream_bytes (d : Dec) (bs : List Byte) :
    d.bytes ++ bs = (decodeStream d bs).1.flatMap Item.bytes ++ (decodeStream d bs).2.bytes := by
  induction bs generalizing d with
  | nil => simp
  | cons b bs ih =>
    calc d.bytes ++ b :: bs
        = (d.bytes ++ [b]) ++ bs := by simp
      _ = (d.feed b).2.toList.flatMap Item.bytes ++ ((d.feed b).1.bytes ++ bs) := by
        rw [Dec.feed_bytes, List.append_assoc]
      _ = _ := by rw [ih, decodeStream_cons, List.flatMap_append, List.append_assoc]

theorem decodeStream_wellFormed {d : Dec} (h : d.wellFormed = true) (bs : List Byte) :
    (decodeStream d bs).2.wellFormed = true := by
  induction bs generalizing d with
  | nil => exact h
  | cons b bs ih =>
    rw [decodeStream_cons]
    exact ih (Dec.feed_wellFormed b h)

theorem decodeStream_genuine {d : Dec} {bs : List Byte} {it : Item} (h : it ∈ (decodeStream d bs).1) : it.Genuine := by
  induction bs generalizing d with
  | nil => cases h
  | cons b bs ih =>
    rw [decodeStream_cons] at h
    exact (List.mem_append.mp h).elim Dec.feed_genuine ih

/-- Settles O4: each clause is an induction along the stream. -/
theorem streamDecodingLosesNothing : Obligations.StreamDecodingLosesNothing :=
  fun d bs h =>
    ⟨decodeStream_bytes d bs, decodeStream_wellFormed h bs, fun _ => decodeStream_genuine, fun _ => decodeStream_genuine⟩

end Sys2Proof
end

/-! ### One command: its bytes and nothing else (O1, O2) -/

section
namespace Sys2Proof

/-- With all its parameters there, an opcode gives its command, and the bytes after these are left (R94). -/
theorem decodeBytes_of_assemble {op : Opcode} {ps : List Byte} {i : Instr} (h : assemble op ps = some i) (rest : List Byte) :
    decodeBytes (op.code :: (ps ++ rest)) = .ok (i, rest) := by
  have hlen : ps.length = op.arity := (assemble_isSome_iff op ps).mp (by rw [h]; rfl)
  simp [decodeBytes, ← hlen, h]

/-- A command and the bytes after it are decoded from exactly its encoding followed by these. -/
theorem decodeBytes_eq_ok_iff {bs rest : List Byte} {i : Instr} :
    decodeBytes bs = .ok (i, rest) ↔ i.isCommand = true ∧ bs = encodeCommand i ++ rest := by
  constructor
  · intro h
    cases bs with
    | nil => cases h
    | cons b bs =>
      cases ho : Opcode.ofByte b with
      | none => simp [decodeBytes, ho] at h
      | some op =>
        cases ha : assemble op (bs.take op.arity) with
        | none => simp [decodeBytes, ho, ha] at h
        | some j =>
          obtain ⟨rfl, rfl⟩ : j = i ∧ bs.drop op.arity = rest := by simpa [decodeBytes, ho, ha] using h
          obtain ⟨henc, hcmd⟩ := encodeCommand_of_assemble ha
          exact ⟨hcmd, by simp [henc, Opcode.code_of_ofByte ho]⟩
  · rintro ⟨hi, rfl⟩
    obtain ⟨op, ps, ha, henc⟩ := exists_assemble hi
    rw [henc]
    exact decodeBytes_of_assemble ha rest

/-- A stimulus of bytes is one command with nothing after it (R90). -/
theorem decode_bytes_eq_ok_iff {bs : List Byte} {i : Instr} :
    decode (.bytes bs) = .ok i ↔ decodeBytes bs = .ok (i, []) := by
  rcases h : decodeBytes bs with e | ⟨j, _ | ⟨b, rest⟩⟩ <;> simp [decode, h]

/-- Settles O2: bytes are decoded to a command with nothing left exactly if they are its encoding. -/
theorem bytesDecodeToExactlyTheirCommand : Obligations.BytesDecodeToExactlyTheirCommand := by
  intro bs i
  rw [decode_bytes_eq_ok_iff, decodeBytes_eq_ok_iff, List.append_nil]

theorem decodeBytes_encodeCommand {i : Instr} (h : i.isCommand = true) (rest : List Byte) :
    decodeBytes (encodeCommand i ++ rest) = .ok (i, rest) :=
  decodeBytes_eq_ok_iff.mpr ⟨h, rfl⟩

theorem decodeTick_code (p : Phase) (bitpos : BitVec 3) : decodeTick ⟨p.code, bitpos⟩ = .ok (tickInstr p bitpos) := by
  simp [decodeTick]

/-- Settles O1: each written word is the encoding of its command (R93), and each selector the code of its phase (R100). -/
theorem writtenWordsDecode : Obligations.WrittenWordsDecode := fun x y rest bp =>
  ⟨decodeBytes_encodeCommand (i := .reset) rfl rest,
    decodeBytes_encodeCommand (i := .versionRequest) rfl rest,
    decodeBytes_encodeCommand (i := .noOperation) rfl rest,
    decodeBytes_encodeCommand (i := .setTxStartCode x) rfl rest,
    decodeBytes_encodeCommand (i := .turnTxOn) rfl rest,
    decodeBytes_encodeCommand (i := .turnTxOff) rfl rest,
    decodeBytes_encodeCommand (i := .setDmxChannelValueLow x y) rfl rest,
    decodeBytes_encodeCommand (i := .setDmxChannelValueHigh x y) rfl rest,
    decodeBytes_encodeCommand (i := .turnOnBlackout) rfl rest,
    decodeBytes_encodeCommand (i := .turnOffBlackout) rfl rest,
    decodeBytes_encodeCommand (i := .setLastTxCodeLow x) rfl rest,
    decodeBytes_encodeCommand (i := .setLastTxCodeHigh x) rfl rest,
    decodeTick_code .brk bp,
    decodeTick_code .markAfterBreak bp,
    decodeTick_code .startBit bp,
    decodeTick_code .dataBits 6,
    decodeTick_code .dataBits 7,
    decodeTick_code .stopBits bp,
    decodeTick_code .idle bp⟩

end Sys2Proof
end

/-! ### The decoder byte by byte (O3, O5, O7) -/

section
namespace Sys2Proof
open Machine

theorem Dec.feed_unlisted {b : Byte} (h : b ∉ opcodeBytes) : Dec.awaitOpcode.feed b = (.awaitOpcode, some (.discarded b)) := by
  simp [Dec.feed, (Opcode.ofByte_eq_none_iff b).mpr h]

/-- An opcode without parameters is a command (R170). -/
theorem Dec.feed_code_completes {op : Opcode} {i : Instr} (h : assemble op [] = some i) :
    Dec.awaitOpcode.feed op.code = (.awaitOpcode, some (.command i)) := by
  simp [Dec.feed, h]

/-- An opcode with parameters waits for them (R170). -/
theorem Dec.feed_code_waits {op : Opcode} (h : op.arity ≠ 0) :
    Dec.awaitOpcode.feed op.code = (.awaitParams op [], none) := by
  simp [Dec.feed, (assemble_none_iff op []).mpr (Ne.symm h)]

/-- The last parameter completes the command (R98, R170). -/
theorem Dec.feed_param_completes {op : Opcode} {ps : List Byte} {b : Byte} {i : Instr} (h : assemble op (ps ++ [b]) = some i) :
    (Dec.awaitParams op ps).feed b = (.awaitOpcode, some (.command i)) := by
  simp [Dec.feed, h]

/-- A parameter before the last is kept (R98, R170). -/
theorem Dec.feed_param_waits {op : Opcode} {ps : List Byte} (b : Byte) (h : ps.length + 1 ≠ op.arity) :
    (Dec.awaitParams op ps).feed b = (.awaitParams op (ps ++ [b]), none) := by
  simp [Dec.feed, (assemble_none_iff op (ps ++ [b])).mpr (by simpa using h)]

/-- Settles O5: a byte after an opcode with parameters is assembled with it, and never looked up. -/
theorem parameterBytesAreNeverOpcodes : Obligations.ParameterBytesAreNeverOpcodes := by
  refine ⟨fun op h => Dec.feed_code_waits (Nat.ne_of_gt h), fun op ps b _ => ?_⟩
  split
  · next hlast =>
    obtain ⟨i, hi⟩ := Option.isSome_iff_exists.mp ((assemble_isSome_iff op (ps ++ [b])).mpr (by simpa using hlast))
    exact ⟨i, Dec.feed_param_completes hi, (encodeCommand_of_assemble hi).1⟩
  · next hmore => exact Dec.feed_param_waits b hmore

/-- The parameters still missing complete the command, and none of them is an item of its own. -/
theorem decodeStream_params {op : Opcode} {i : Instr} (qs ps bs : List Byte) (hne : ps ≠ [])
    (h : assemble op (qs ++ ps) = some i) :
    decodeStream (.awaitParams op qs) (ps ++ bs) =
      (.command i :: (decodeStream .awaitOpcode bs).1, (decodeStream .awaitOpcode bs).2) := by
  induction ps generalizing qs with
  | nil => exact absurd rfl hne
  | cons p ps ih =>
    rw [List.cons_append, decodeStream_cons]
    cases ps with
    | nil => simp [Dec.feed_param_completes h]
    | cons p' ps =>
      have hlen : (qs ++ p :: p' :: ps).length = op.arity := (assemble_isSome_iff op _).mp (by rw [h]; rfl)
      have hmore : qs.length + 1 ≠ op.arity := by
        simp only [List.length_append, List.length_cons] at hlen
        omega
      simpa [Dec.feed_param_waits p hmore] using ih (qs ++ [p]) (by simp) (by simpa using h)

/-- A decoder that awaits an opcode takes a command's encoding as that command, and awaits an opcode again. -/
theorem decodeStream_encodeCommand {i : Instr} (hi : i.isCommand = true) (bs : List Byte) :
    decodeStream .awaitOpcode (encodeCommand i ++ bs) =
      (.command i :: (decodeStream .awaitOpcode bs).1, (decodeStream .awaitOpcode bs).2) := by
  obtain ⟨op, ps, ha, henc⟩ := exists_assemble hi
  have hlen : ps.length = op.arity := (assemble_isSome_iff op ps).mp (by rw [ha]; rfl)
  rw [henc, List.cons_append, decodeStream_cons]
  cases ps with
  | nil => simp [Dec.feed_code_completes ha]
  | cons p ps =>
    have hwaits : op.arity ≠ 0 := by simp [← hlen]
    simpa [Dec.feed_code_waits hwaits] using decodeStream_params [] (p :: ps) bs (by simp) ha

/-- Settles O3, by induction on the commands. -/
theorem commandStreamDecodesToItsCommands : Obligations.CommandStreamDecodesToItsCommands := by
  intro is h
  induction is with
  | nil => rfl
  | cons i is ih =>
    obtain ⟨hi, his⟩ := List.forall_mem_cons.mp h
    rw [List.flatMap_cons, decodeStream_encodeCommand hi, ih his]
    rfl

end Sys2Proof

namespace Sys2Proof.Machine

theorem State.event_of_servesByte {s : State} {b : Byte} {bs : List Byte} (h : ServesByte s b bs) : s.event = .byte b := by
  have hq : s.arrived.rxQueue = b :: bs := h.oldest
  have hn : s.arrived.resetSeq = [] := h.noReset
  simp [State.event, State.serves, h.noRst, h.noTick, hn, hq]

/-- A step that serves a byte is the decode step on it (R170). -/
theorem step_of_servesByte {s : State} {b : Byte} {bs : List Byte} (h : ServesByte s b bs) :
    step s = hStep b (s.past bs) := by
  rw [step_of_legal h.legal, State.event_of_servesByte h, ← State.arrived_takeByte h.oldest]
  rfl

/-- An unlisted byte, where an opcode is awaited, changes nothing (R96). -/
theorem hStep_unlisted {s : State} {b : Byte} (hd : s.dec = .awaitOpcode) (h : b ∉ opcodeBytes) : hStep b s = .next s := by
  simp [hStep, hd, Dec.feed_unlisted h]

/-- Settles O7: the step is a decode step, which discards the byte. -/
theorem unlistedByteIsDiscarded : Obligations.UnlistedByteIsDiscarded :=
  ⟨Opcode.ofByte_isSome_iff, fun _ _ _ hb hd h => (step_of_servesByte hb).trans (hStep_unlisted hd h)⟩

end Sys2Proof.Machine
end

/-! ### Pseudo-instructions (O22) -/

section
namespace Sys2Proof.Machine

/-- The numbers 1..512 in the two ranges that a parameter byte reaches (R95). -/
theorem exists_byte_of_range {n : Nat} (h1 : 1 ≤ n) (h512 : n ≤ 512) :
    (∃ p : Byte, n = p.toNat + 1) ∨ (∃ p : Byte, n = p.toNat + 257) := by
  by_cases h : n ≤ 256
  · exact .inl ⟨BitVec.ofNat 8 (n - 1), by rw [BitVec.toNat_ofNat]; omega⟩
  · exact .inr ⟨BitVec.ofNat 8 (n - 257), by rw [BitVec.toNat_ofNat]; omega⟩

theorem expand_setChannel_low (idx v : Byte) :
    (Pseudo.setChannel (lowIndex idx) v).expand = some [.setDmxChannelValueLow idx v] := by
  have hle : idx.toNat + 1 ≤ 256 := idx.isLt
  simp [Pseudo.expand, lowIndex_eq, hle]

theorem expand_setChannel_high (idx v : Byte) :
    (Pseudo.setChannel (highIndex idx) v).expand = some [.setDmxChannelValueHigh idx v] := by
  have hle : idx.toNat + 257 ≤ 512 := by omega
  simp [Pseudo.expand, highIndex_eq, hle]

theorem expand_setLast_low (p : Byte) : (Pseudo.setLast (p.toNat + 1)).expand = some [.setLastTxCodeLow p] := by
  have hle : p.toNat + 1 ≤ 256 := p.isLt
  simp [Pseudo.expand, hle]

theorem expand_setLast_high (p : Byte) : (Pseudo.setLast (p.toNat + 257)).expand = some [.setLastTxCodeHigh p] := by
  have hle : p.toNat + 257 ≤ 512 := by omega
  simp [Pseudo.expand, hle]

theorem expand_eq_none {p : Pseudo} (h : p.wellFormed = false) : p.expand = none := by
  cases p with
  | setChannel c v =>
    simp only [Pseudo.wellFormed, Bool.and_eq_false_iff, decide_eq_false_iff_not] at h
    rw [Pseudo.expand, if_neg (by omega), if_neg (by omega)]
  | setLast n =>
    simp only [Pseudo.wellFormed, Bool.and_eq_false_iff, decide_eq_false_iff_not] at h
    rw [Pseudo.expand, if_neg (by omega), if_neg (by omega)]
  | guardedReset => cases h

/-- EXECUTE of one write to `BUF` without a response: what it leaves, and the entries it leaves alone (R171). -/
theorem execute_writeBuf {op : Opcode} (hop : op ≠ .noOperation) (a : Nat) (v : Byte) (s : State) :
    ∃ t, execute op (fun u => u.writeBuf a v) [] s = .next t ∧ t = { s with buf := t.buf, lastnop := false } ∧
      t.buf.get a = v ∧ ∀ b, b ≠ a → t.buf.get b = s.buf.get b :=
  ⟨_, rfl, by simp [State.complete, State.writeBuf, lastnopAfter, hop], Memory.get_set_same _ _ _,
    fun _ => Memory.get_set_other _ _⟩

/-- Settles O22: a number in 1..512 is a parameter byte and 1, or a parameter byte and 257; so its expansion is the low command
or the high one. -/
theorem pseudoInstructionsDoWhatTheyName : Obligations.PseudoInstructionsDoWhatTheyName := by
  refine ⟨fun c v s h1 h512 => ?_, fun n s h1 h512 => ?_, rfl, fun _ => expand_eq_none⟩
  · rcases exists_byte_of_range h1 h512 with ⟨idx, rfl⟩ | ⟨idx, rfl⟩
    · obtain ⟨t, ht⟩ := execute_writeBuf (op := .setDmxChannelValueLow) (by decide) (lowIndex idx) v s
      rw [← lowIndex_eq]
      exact ⟨_, t, expand_setChannel_low idx v, ht⟩
    · obtain ⟨t, ht⟩ := execute_writeBuf (op := .setDmxChannelValueHigh) (by decide) (highIndex idx) v s
      rw [← highIndex_eq]
      exact ⟨_, t, expand_setChannel_high idx v, ht⟩
  · rcases exists_byte_of_range h1 h512 with ⟨p, rfl⟩ | ⟨p, rfl⟩
    · rw [if_pos (show p.toNat + 1 ≤ 256 from p.isLt)]
      exact ⟨_, _, expand_setLast_low p, rfl, rfl, lowLast_toNat p⟩
    · rw [if_neg (show ¬p.toNat + 257 ≤ 256 by omega)]
      exact ⟨_, _, expand_setLast_high p, rfl, rfl, highLast_toNat p⟩

end Sys2Proof.Machine
end

/-! ## PROOFS for the family 40_frame_generator.md

The tick in each phase first, as one update of the state; then the steps that serve it; then runs of ticks: a slot, a frame, and
the halt. -/

/-! ### The level of a data bit (O23) -/

section
namespace Sys2Proof.Machine

/-- The level is high exactly if a bit of the mask meets a bit of the shifted byte (R125). -/
theorem level_eq_true_iff (v : Byte) (b : BitVec 3) (m : Byte) :
    level v b m = true ↔ ∃ k, k < 8 ∧ v.getLsbD (b.toNat + k) = true ∧ m.getLsbD k = true := by
  have bit (k : Nat) : ((v >>> b.toNat) &&& m).getLsbD k = (v.getLsbD (b.toNat + k) && m.getLsbD k) := by
    rw [BitVec.getLsbD_and, BitVec.getLsbD_ushiftRight]
  rw [level, decide_eq_true_iff]
  constructor
  · intro hne
    by_contra! hall
    refine hne (BitVec.eq_of_getLsbD_eq fun k hk => ?_)
    simpa [bit] using hall k hk
  · rintro ⟨k, -, hv, hm⟩ hzero
    have := bit k
    simp [hzero, hv, hm] at this

/-- The mask of normal operation lets the bit itself through (R22). -/
theorem level_blackoutOff (v : Byte) (b : BitVec 3) : level v b blackoutOff = v.getLsbD b.toNat := by
  have one (k : Nat) : blackoutOff.getLsbD k = decide (k = 0) := by simp [blackoutOff]
  rw [Bool.eq_iff_iff, level_eq_true_iff]
  constructor
  · rintro ⟨k, -, hv, hm⟩
    obtain rfl : k = 0 := by simpa [one] using hm
    exact hv
  · exact fun hv => ⟨0, by decide, hv, rfl⟩

/-- The mask of blackout lets nothing through (R22). -/
@[simp] theorem level_blackoutOn (v : Byte) (b : BitVec 3) : level v b blackoutOn = false := by simp [level, blackoutOn]

@[simp] theorem level_zero (b : BitVec 3) (m : Byte) : level 0 b m = false := by simp [level]

/-- Settles O23: the level in general, and at the two masks. -/
theorem levelIsTheMaskedBit : Obligations.LevelIsTheMaskedBit :=
  fun v b m => ⟨level_eq_true_iff v b m, level_blackoutOff v b, level_blackoutOn v b⟩

end Sys2Proof.Machine
end

/-! ### The tick in each phase (O24-O30) -/

section
namespace Sys2Proof.Machine

section
variable {s : State}

theorem State.afterTick_of_brk (hp : s.phase = .brk) : s.afterTick =
    { s with reload := s.params.durBreak, pin := s.pend, phase := .markAfterBreak, pend := true } := by
  simp [State.afterTick, hp, State.decideNext, State.beginInterval, reloadFor]

theorem State.afterTick_of_markAfterBreak (hp : s.phase = .markAfterBreak) : s.afterTick =
    { s with reload := s.params.durMab, pin := s.pend, phase := .startBit, pend := false } := by
  simp [State.afterTick, hp, State.decideNext, State.beginInterval, reloadFor]

theorem State.afterTick_of_startBit (hp : s.phase = .startBit) : s.afterTick =
    { s with
      reload := s.params.durBit, pin := s.pend, shift := s.buf.get s.slotIndex, bitpos := 0, phase := .dataBits,
      pend := level (s.buf.get s.slotIndex) 0 s.blackout } := by
  simp [State.afterTick, hp, State.decideNext, State.beginInterval, reloadFor]

theorem State.afterTick_of_dataBit (hp : s.phase = .dataBits) (hb : s.bitpos.toNat < 7) : s.afterTick =
    { s with
      reload := s.params.durBit, pin := s.pend, bitpos := s.bitpos + 1,
      pend := level s.shift (s.bitpos + 1) s.blackout } := by
  simp [State.afterTick, hp, hb, nextDataBit, State.beginInterval, reloadFor]

theorem State.afterTick_of_lastDataBit (hp : s.phase = .dataBits) (hb : s.bitpos = 7) : s.afterTick =
    { s with reload := s.params.durBit, pin := s.pend, phase := .stopBits, pend := true } := by
  simp [State.afterTick, hp, hb, State.decideNext, State.beginInterval, reloadFor]

theorem State.afterTick_of_stopBits (hp : s.phase = .stopBits) : s.afterTick =
    { s with
      reload := s.params.durStop, pin := s.pend,
      remain := if s.remain = 0 then s.last else s.remain - 1,
      flast := if s.remain = 0 then s.last else s.flast,
      phase := if s.txen then (if s.remain = 0 then .brk else .startBit) else .idle,
      pend := !s.txen } := by
  simp [State.afterTick, hp, endSlot_eq, phaseAfterSlot, State.beginInterval, reloadFor]

theorem State.afterTick_of_idle (hp : s.phase = .idle) : s.afterTick =
    { s with
      reload := s.params.durIdle, pin := s.pend, phase := if s.txen then .startBit else .idle, pend := !s.txen } := by
  simp [State.afterTick, hp, idleNext_eq, State.beginInterval, reloadFor]

/-- The case that `PHASE` and `BITPOS` select is the tick (R100). -/
theorem exec_of_selected {c : Instr} (hc : tickInstr s.phase s.bitpos = c) (hl : s.legal = true) :
    exec c s = .next s.afterTick := hc ▸ gStep_of_legal hl

/-- In a legal state the slot's index is not below zero (R45, R124). -/
theorem State.slotIndex_add_remain (hl : s.legal = true) : s.slotIndex + s.remain.toNat = s.flast.toNat :=
  Nat.sub_add_cancel (by have := s.legal_iff.mp hl; omega)

end

/-- Settles O24: the case selected is the tick in Break, and R47 gives the level shown. -/
theorem breakStep : Obligations.BreakStep := by
  intro s hp hl
  have hc : tickInstr s.phase s.bitpos = .tickBreak := by rw [hp]; rfl
  exact ⟨hc, State.afterTick_of_brk hp ▸ exec_of_selected hc hl, fun h => h.pendLow (.inl hp)⟩

/-- Settles O25: the case selected is the tick in MarkAfterBreak, and R47 gives the level shown. -/
theorem markAfterBreakStep : Obligations.MarkAfterBreakStep := by
  intro s hp hl
  have hc : tickInstr s.phase s.bitpos = .tickMarkAfterBreak := by rw [hp]; rfl
  exact ⟨hc, State.afterTick_of_markAfterBreak hp ▸ exec_of_selected hc hl, fun h => h.pendHigh (.inl hp)⟩

/-- Settles O26: the case selected is the tick in StartBit, and R47 gives the level shown. -/
theorem startBitStep : Obligations.StartBitStep := by
  intro s hp hl
  have hc : tickInstr s.phase s.bitpos = .tickStartBit := by rw [hp]; rfl
  exact ⟨hc, State.slotIndex_add_remain hl, Nat.le_of_lt_succ (State.slotIndex_lt hl),
    State.afterTick_of_startBit hp ▸ exec_of_selected hc hl, fun h => h.pendLow (.inr hp)⟩

/-- Settles O27: `BITPOS` below 7 selects the case that goes on to the next bit. -/
theorem dataBitStep : Obligations.DataBitStep := by
  intro s hp hb hl
  have hc : tickInstr s.phase s.bitpos = .tickDataBit := by rw [hp]; exact if_pos hb
  exact ⟨hc, by bv_omega, State.afterTick_of_dataBit hp hb ▸ exec_of_selected hc hl⟩

/-- Settles O28: `BITPOS` 7 selects the case that goes on to the stop bits. -/
theorem lastDataBitStep : Obligations.LastDataBitStep := by
  intro s hp hb hl
  have hc : tickInstr s.phase s.bitpos = .tickLastDataBit := by rw [hp, hb]; rfl
  exact ⟨hc, State.afterTick_of_lastDataBit hp hb ▸ exec_of_selected hc hl⟩

/-- Settles O29: the case selected is the tick in StopBits, and R47 gives the level shown. -/
theorem stopBitsStep : Obligations.StopBitsStep := by
  intro s hp hl
  have hc : tickInstr s.phase s.bitpos = .tickStopBits := by rw [hp]; rfl
  exact ⟨hc, State.afterTick_of_stopBits hp ▸ exec_of_selected hc hl, fun hr => by bv_omega,
    fun h => h.pendHigh (.inr (.inl hp))⟩

/-- Settles O30: the case selected is the tick in Idle, and R47 gives the level shown. -/
theorem idleStep : Obligations.IdleStep := by
  intro s hp hl
  have hc : tickInstr s.phase s.bitpos = .tickIdle := by rw [hp]; rfl
  exact ⟨hc, State.afterTick_of_idle hp ▸ exec_of_selected hc hl, fun h => h.pendHigh (.inr (.inr hp))⟩

end Sys2Proof.Machine
end

/-! ### Legal and refused states, and the cursor (O31, O39, O40, O46) -/

section
namespace Sys2Proof.Machine

/-- Settles O31: the event is the tick, whatever byte arrives with it. -/
theorem stepRunsTheSelectedTickFirst : Obligations.StepRunsTheSelectedTickFirst := by
  intro s hl hr ht
  rw [step_of_legal hl, s.event_eq_tick_iff.mpr ⟨hr, ht⟩]
  rfl

/-- A tick changes the cursor only in the StopBits step, and `FLAST` only in the one that ends the frame (R130). -/
theorem State.afterTick_cursor (s : State) :
    (s.afterTick.remain = s.remain ∧ s.afterTick.flast = s.flast) ∨
    (s.phase = .stopBits ∧ s.remain = 0 ∧ s.afterTick.remain = s.last ∧ s.afterTick.flast = s.last) ∨
    (s.phase = .stopBits ∧ s.remain ≠ 0 ∧ s.afterTick.remain = s.remain - 1 ∧ s.afterTick.flast = s.flast) := by
  cases hp : s.phase with
  | brk => rw [State.afterTick_of_brk hp]; exact .inl ⟨rfl, rfl⟩
  | markAfterBreak => rw [State.afterTick_of_markAfterBreak hp]; exact .inl ⟨rfl, rfl⟩
  | startBit => rw [State.afterTick_of_startBit hp]; exact .inl ⟨rfl, rfl⟩
  | dataBits =>
    by_cases hb : s.bitpos.toNat < 7
    · rw [State.afterTick_of_dataBit hp hb]; exact .inl ⟨rfl, rfl⟩
    · rw [State.afterTick_of_lastDataBit hp (by bv_omega)]; exact .inl ⟨rfl, rfl⟩
  | stopBits =>
    rw [State.afterTick_of_stopBits hp]
    by_cases hr : s.remain = 0
    · exact .inr (.inl ⟨rfl, hr, if_pos hr, if_pos hr⟩)
    · exact .inr (.inr ⟨rfl, hr, if_neg hr, if_neg hr⟩)
  | idle => rw [State.afterTick_of_idle hp]; exact .inl ⟨rfl, rfl⟩

/-- A tick keeps the cursor in range (R45). -/
theorem State.afterTick_legal {s : State} (hl : s.legal = true) : s.afterTick.legal = true := by
  rw [State.legal_iff] at hl ⊢
  rw [s.afterTick_sameHost.last]
  rcases s.afterTick_cursor with ⟨hr, hf⟩ | ⟨-, -, hr, hf⟩ | ⟨-, hne, hr, hf⟩ <;> rw [hr, hf]
  · exact hl
  · omega
  · have : (s.remain - 1).toNat ≤ s.remain.toNat := by bv_omega
    omega

/-- The host's writes keep `LAST` in range (R45). -/
theorem HostEffect.legal {s u : State} (h : HostEffect s u) (hl : s.legal = true) : u.legal = true := by
  cases h with
  | last n hn =>
    obtain ⟨-, -, hf⟩ := s.legal_iff.mp hl
    exact (State.legal_iff _).mpr ⟨hn.1, hn.2, hf⟩
  | nothing | entry | txen | mask => exact hl

theorem State.resetStep_legal {s : State} (hn : s.resetSeq ≠ []) (pick : Nat) (hl : s.legal = true) :
    (s.resetStep pick).legal = true := by
  obtain ⟨k, w, -, -, -, he⟩ := State.resetStep_cases hn pick
  have hw : (w.apply { s with resetSeq := s.resetSeq.eraseIdx k }).legal = true := (w.apply_effect _).legal hl
  rw [he]
  split
  · exact hw
  · exact hw

/-- Each kind of step keeps the state legal. -/
theorem Stepped.legal {s t : State} (h : Stepped s t) (hl : s.legal = true) : t.legal = true := by
  cases h with
  | powerOn => rfl
  | tick => exact State.afterTick_legal hl
  | resetWrite _ _ hn => exact State.resetStep_legal (s := s.past s.waiting) hn _ hl
  | command _ _ hi hx =>
    rcases exec_command_next hi hx with ⟨-, -, rfl⟩ | ⟨u, op, r, hu, rfl⟩
    · exact hl
    · exact hu.legal hl
  | discarded => exact hl
  | waits => exact hl
  | quiet => exact hl

/-- In a legal state the step answers, whatever the moment brings. -/
theorem exists_step_of_legal {s : State} (hl : s.legal = true) : ∃ t, step s = .next t := by
  cases hr : s.moment.rst with
  | true => exact ⟨_, by rw [step_of_legal hl, s.event_eq_powerOn_iff.mpr hr]; rfl⟩
  | false =>
    cases ht : s.moment.tick with
    | true => exact ⟨_, (stepRunsTheSelectedTickFirst s hl hr ht).trans (gStep_of_legal (s := s.past s.waiting) hl)⟩
    | false =>
      obtain ⟨t, h, -⟩ := step_withGenerator hl hr ht
      exact ⟨t, h⟩

/-- Settles O39: a legal state is stepped from, an illegal one is refused. -/
theorem legalStepAlwaysAnswers : Obligations.LegalStepAlwaysAnswers := by
  constructor
  · intro s hl
    obtain ⟨t, h⟩ := exists_step_of_legal hl
    exact ⟨t, h, (stepped h).legal hl⟩
  · intro s f h
    cases hl : s.legal with
    | true =>
      obtain ⟨t, h'⟩ := exists_step_of_legal hl
      cases h'.symm.trans h
    | false => cases (step_of_illegal hl).symm.trans h

theorem tickCase_of_illegal {c : Instr} {k : State → Result} {s : State} (hc : tickInstr s.phase s.bitpos = c)
    (h : s.legal = false) : tickCase c k s = .refused .unreachableState := by simp [tickCase, hc, h]

/-- A tick refuses an illegal state in every phase (R132): the case selected is no command, and each tick case looks first. -/
theorem gStep_of_illegal {s : State} (h : s.legal = false) : gStep s = .refused .unreachableState := by
  have hcase := tickInstr_not_command s.phase s.bitpos
  unfold gStep
  cases hc : tickInstr s.phase s.bitpos
  case tickBreak | tickMarkAfterBreak | tickStartBit | tickDataBit | tickLastDataBit | tickStopBits | tickIdle =>
    simp only [exec, execTickBreak, execTickMarkAfterBreak, execTickStartBit, execTickDataBit, execTickLastDataBit,
      execTickStopBits, execTickIdle, tickCase_of_illegal hc h]
  all_goals
    rw [hc] at hcase
    cases hcase

/-- Settles O40: the range is what makes a state legal; and `PHASE` codes 6 and 7 name no phase. -/
theorem unreachableValuesAreRefused : Obligations.UnreachableValuesAreRefused := by
  refine ⟨fun s hn => ?_, fun bp => ⟨rfl, rfl⟩⟩
  rw [← s.legal_iff, Bool.not_eq_true] at hn
  exact ⟨step_of_illegal hn, gStep_of_illegal hn⟩

/-- Settles O46: the host's steps leave the cursor alone, and so does a tick that does not end the frame. -/
theorem lastIsSampledOnlyAtTheRestart : Obligations.LastIsSampledOnlyAtTheRestart := by
  intro s t h hne
  cases hr : s.moment.rst with
  | true => exact .inl rfl
  | false =>
    cases ht : s.moment.tick with
    | false => exact absurd (step_sameGenerator hr ht h).flast hne
    | true =>
      have hl := (step_next h).1
      have hs := (stepRunsTheSelectedTickFirst s hl hr ht).trans (gStep_of_legal (s := s.past s.waiting) hl)
      cases hs.symm.trans h
      rcases (s.past s.waiting).afterTick_cursor with ⟨-, hf⟩ | ⟨hp, hz, hrem, hf⟩ | ⟨-, -, -, hf⟩
      · exact absurd hf hne
      · exact .inr ⟨rfl, hp, hz, hf, hrem⟩
      · exact absurd hf hne

end Sys2Proof.Machine
end

/-! ### The intervals of a slot (O53, O54)

Between two ticks of a slot the next data bit is pending. Each tick shows it and passes on to the next one; the host's steps leave
the generator's registers alone, so it stays pending whatever the host does. -/

section
namespace Sys2Proof.Machine

/-- A tick shows the level decided before it, and the reload of the phase now beginning (R120). -/
theorem intervalOf_afterTick (s : State) : intervalOf s s.afterTick = ⟨s.pend, reloadFor s.params s.phase, s.phase⟩ := by
  have output : s.afterTick.pin = s.pend ∧ s.afterTick.reload = reloadFor s.params s.phase := by
    cases hp : s.phase with
    | brk => rw [State.afterTick_of_brk hp]; exact ⟨rfl, rfl⟩
    | markAfterBreak => rw [State.afterTick_of_markAfterBreak hp]; exact ⟨rfl, rfl⟩
    | startBit => rw [State.afterTick_of_startBit hp]; exact ⟨rfl, rfl⟩
    | dataBits =>
      by_cases hb : s.bitpos.toNat < 7
      · rw [State.afterTick_of_dataBit hp hb]; exact ⟨rfl, rfl⟩
      · rw [State.afterTick_of_lastDataBit hp (by bv_omega)]; exact ⟨rfl, rfl⟩
    | stopBits => rw [State.afterTick_of_stopBits hp]; exact ⟨rfl, rfl⟩
    | idle => rw [State.afterTick_of_idle hp]; exact ⟨rfl, rfl⟩
  rw [intervalOf, output.1, output.2]

/-- `t` is in the slot that starts in `s`, before the tick of data bit `j`, whose level was computed with the mask `m`
(R47, R126). -/
structure BitPending (s t : State) (m : Byte) (j : Nat) : Prop where
  phase : t.phase = .dataBits
  bitpos : t.bitpos = BitVec.ofNat 3 j
  shift : t.shift = s.buf.get s.slotIndex
  pend : t.pend = level (s.buf.get s.slotIndex) (BitVec.ofNat 3 j) m
  remain : t.remain = s.remain
  flast : t.flast = s.flast

/-- `t` is in the slot that starts in `s`, before the tick of its stop bits (R127). -/
structure StopPending (s t : State) : Prop where
  phase : t.phase = .stopBits
  pend : t.pend = true
  remain : t.remain = s.remain
  flast : t.flast = s.flast

theorem BitPending.first {s : State} (hp : s.phase = .startBit) : BitPending s s.afterTick s.blackout 0 := by
  rw [State.afterTick_of_startBit hp]
  exact ⟨rfl, rfl, rfl, rfl, rfl, rfl⟩

theorem BitPending.next {s t : State} {m : Byte} {j : Nat} (h : BitPending s t m j) (hj : j < 7) :
    BitPending s t.afterTick t.blackout (j + 1) := by
  have hb : t.bitpos.toNat < 7 := by rw [h.bitpos, BitVec.toNat_ofNat]; omega
  have hnext : t.bitpos + 1 = BitVec.ofNat 3 (j + 1) := by rw [h.bitpos, BitVec.ofNat_add]; rfl
  rw [State.afterTick_of_dataBit h.phase hb]
  exact { h with
    bitpos := hnext
    pend := by simp only [h.shift, hnext] }

theorem BitPending.stop {s t : State} {m : Byte} (h : BitPending s t m 7) : StopPending s t.afterTick := by
  rw [State.afterTick_of_lastDataBit h.phase h.bitpos]
  exact ⟨rfl, rfl, h.remain, h.flast⟩

theorem BitPending.host {s t u : State} {m : Byte} {j : Nat} (h : BitPending s t m j) (hg : SameGenerator t u) :
    BitPending s u m j :=
  ⟨hg.phase.trans h.phase, hg.bitpos.trans h.bitpos, hg.shift.trans h.shift, hg.pend.trans h.pend,
    hg.remain.trans h.remain, hg.flast.trans h.flast⟩

theorem StopPending.host {s t u : State} (h : StopPending s t) (hg : SameGenerator t u) : StopPending s u :=
  ⟨hg.phase.trans h.phase, hg.pend.trans h.pend, hg.remain.trans h.remain, hg.flast.trans h.flast⟩

section
variable {b a : Nat → State} (h : SlotRun b a)
include h

theorem SlotRun.after {k : Nat} (hk : k < 10) : a k = (b k).afterTick :=
  Host.Outcome.next.inj ((h.tick k hk).symm.trans (gStep_of_legal (h.legal k hk)))

theorem SlotRun.between {k : Nat} (hk : k < 9) : SameGenerator (b k).afterTick (b (k + 1)) :=
  h.after (Nat.lt_succ_of_lt hk) ▸ h.host k hk

theorem SlotRun.bitPending {j : Nat} (hj : j < 8) : BitPending (b 0) (b (j + 1)) (b j).blackout j := by
  induction j with
  | zero => exact (BitPending.first h.phase).host (h.between (by omega))
  | succ j ih => exact ((ih (by omega)).next (by omega)).host (h.between (by omega))

theorem SlotRun.stopPending : StopPending (b 0) (b 9) :=
  (h.bitPending (j := 7) (by omega)).stop.host (h.between (k := 8) (by omega))

theorem SlotRun.startInterval : intervalOf (b 0) (a 0) = ⟨false, (b 0).params.durBit, .startBit⟩ := by
  rw [h.after (by omega), intervalOf_afterTick, h.start.pendLow (.inr h.phase), h.phase]
  rfl

theorem SlotRun.dataInterval {j : Nat} (hj : j < 8) : intervalOf (b (j + 1)) (a (j + 1)) =
    dataInterval (b 0).params ((b 0).buf.get (b 0).slotIndex) (b j).blackout j := by
  have hb := h.bitPending hj
  rw [h.after (by omega), intervalOf_afterTick, hb.pend, hb.phase, h.params (j + 1) (by omega)]
  rfl

theorem SlotRun.stopInterval : intervalOf (b 9) (a 9) = ⟨true, (b 0).params.durStop, .stopBits⟩ := by
  have hs := h.stopPending
  rw [h.after (by omega), intervalOf_afterTick, hs.pend, hs.phase, h.params 9 (by omega)]
  rfl

end

/-- Settles O53: the start bit, the data bits and the stop bits. -/
theorem slotWaveformUnderHostActivity : Obligations.SlotWaveformUnderHostActivity :=
  fun _ _ h => ⟨h.startInterval, fun _ => h.dataInterval, h.stopInterval⟩

/-- Ten intervals that are a start bit, the eight data bits and the stop bits are a slot (R154). -/
theorem map_range_eq_slotWave {f : Nat → WaveInterval} {p : Params} {v m : Byte} (start : f 0 = ⟨false, p.durBit, .startBit⟩)
    (data : ∀ j, j < 8 → f (j + 1) = dataInterval p v m j) (stop : f 9 = ⟨true, p.durStop, .stopBits⟩) :
    (List.range 10).map f = slotWave p v m := by
  have hr : List.range 10 = 0 :: ((List.range 8).map (· + 1) ++ [9]) := rfl
  have hd : (List.range 8).map (f ∘ (· + 1)) = (List.range 8).map (dataInterval p v m) :=
    List.map_congr_left fun j hj => data j (List.mem_range.mp hj)
  rw [hr, slotWave, List.map_cons, List.map_append, List.map_map, hd, start, List.map_singleton, stop]

/-- Under the mask 0x00 a data bit looks like one of the byte 0x00: both are low (R155). -/
theorem dataInterval_blackout (p : Params) (v : Byte) (j : Nat) : dataInterval p v blackoutOn j = dataInterval p 0 0x01 j := by
  rw [dataInterval, dataInterval, level_blackoutOn, level_zero]

/-- Settles O54: the intervals of the slot with every data bit low. -/
theorem blackedOutSlotIsAllLow : Obligations.BlackedOutSlotIsAllLow := by
  intro b a h hm
  have low (j : Nat) (hj : j < 8) : intervalOf (b (j + 1)) (a (j + 1)) = dataInterval (b 0).params 0x00 0x01 j := by
    rw [h.dataInterval hj, hm j hj]
    exact dataInterval_blackout _ _ j
  refine ⟨fun k hk => ?_, congrArg WaveInterval.level h.startInterval, fun j hj => ?_,
    map_range_eq_slotWave h.startInterval low h.stopInterval⟩
  · rw [h.after hk, (b k).afterTick_sameHost.buf]
  · exact (congrArg WaveInterval.level (low j hj)).trans (level_zero _ _)

end Sys2Proof.Machine
end

/-! ### Ticks alone -/

section
namespace Sys2Proof.Machine

/-- The state after `n` ticks and nothing else. -/
def State.ticks (s : State) (n : Nat) : State := State.afterTick^[n] s

/-- The intervals of these ticks. -/
def State.tickWave (s : State) (n : Nat) : List WaveInterval :=
  (List.range n).map fun k => intervalOf (s.ticks k) (s.ticks (k + 1))

@[simp] theorem State.ticks_zero (s : State) : s.ticks 0 = s := rfl

theorem State.ticks_succ (s : State) (n : Nat) : s.ticks (n + 1) = (s.ticks n).afterTick := Function.iterate_succ_apply' _ _ _

theorem State.ticks_afterTick (s : State) (n : Nat) : s.afterTick.ticks n = s.ticks (n + 1) := rfl

theorem State.ticks_add (s : State) (m n : Nat) : s.ticks (m + n) = (s.ticks m).ticks n := by
  rw [State.ticks, Nat.add_comm, Function.iterate_add_apply]
  rfl

theorem State.tickWave_add (s : State) (m n : Nat) : s.tickWave (m + n) = s.tickWave m ++ (s.ticks m).tickWave n := by
  simp only [State.tickWave, List.range_add, List.map_append, List.map_map, ← State.ticks_add]
  rfl

theorem State.tickWave_succ (s : State) (n : Nat) :
    s.tickWave (n + 1) = intervalOf s s.afterTick :: s.afterTick.tickWave n := by
  rw [Nat.add_comm, State.tickWave_add]
  rfl

theorem SameHost.trans {s t u : State} (h : SameHost s t) (h' : SameHost t u) : SameHost s u :=
  ⟨h'.buf.trans h.buf, h'.blackout.trans h.blackout, h'.last.trans h.last, h'.txen.trans h.txen, h'.dec.trans h.dec,
    h'.lastnop.trans h.lastnop, h'.resp.trans h.resp, h'.resetSeq.trans h.resetSeq⟩

theorem State.ticks_sameHost (s : State) (n : Nat) : SameHost s (s.ticks n) := by
  induction n with
  | zero => constructor <;> rfl
  | succ n ih => exact s.ticks_succ n ▸ ih.trans (State.afterTick_sameHost _)

@[simp] theorem State.ticks_params (s : State) (n : Nat) : (s.ticks n).params = s.params := by
  induction n with
  | zero => rfl
  | succ n ih => rw [State.ticks_succ, State.afterTick_params, ih]

theorem State.Inv.ticks {s : State} (h : s.Inv) (n : Nat) : (s.ticks n).Inv := by
  induction n with
  | zero => exact h
  | succ n ih => exact s.ticks_succ n ▸ ih.afterTick

/-- From a state that meets the invariants ticks always go on (R133). -/
theorem State.Inv.runTicks {s : State} (h : s.Inv) (n : Nat) : runTicks n s = .next (s.ticks n) := by
  induction n generalizing s with
  | zero => rfl
  | succ n ih =>
    rw [Machine.runTicks, gStep_of_legal h.legal]
    exact ih h.afterTick

/-! Steps that serve ticks do what the ticks do; the environment's part of the state passes alongside. -/

/-- A tick reads nothing of the environment's part of the state. -/
theorem State.afterTick_past (s : State) (q : List Byte) : (s.past q).afterTick = s.afterTick.past q := by
  have hphase : (s.past q).phase = s.phase := rfl
  have hbit : (s.past q).bitpos = s.bitpos := rfl
  unfold State.afterTick
  rw [hphase]
  cases s.phase with
  | brk => rfl
  | markAfterBreak => rfl
  | startBit => rfl
  | dataBits =>
    by_cases hlt : s.bitpos.toNat < 7
    · simp only [hbit, hlt, if_true]; rfl
    · simp only [hbit, hlt, if_false]; rfl
  | stopBits => simp only [endSlot_eq]; rfl
  | idle => simp only [idleNext_eq]; rfl

theorem State.ticks_past (s : State) (q : List Byte) (n : Nat) : (s.past q).ticks n = (s.ticks n).past q := by
  induction n with
  | zero => rfl
  | succ n ih => rw [State.ticks_succ, ih, State.afterTick_past, State.ticks_succ]

theorem State.tickWave_past (s : State) (q : List Byte) (n : Nat) : (s.past q).tickWave n = s.tickWave n := by
  simp only [State.tickWave, State.ticks_past]
  rfl

/-- The step of a moment with a tick is the tick, and the moment passes (R120, R228). -/
theorem step_of_tick {s : State} (hl : s.legal = true) (hr : s.moment.rst = false) (ht : s.moment.tick = true) :
    step s = .next (s.afterTick.past s.waiting) := by
  rw [stepRunsTheSelectedTickFirst s hl hr ht, ← State.afterTick_past]
  exact gStep_of_legal (s := s.past s.waiting) hl

/-- While only ticks come, the waveform and the run are those of the ticks. -/
theorem OnlyTicks.run_waveform {n : Nat} {s : State} (h : s.Inv) (ho : OnlyTicks n s) :
    waveform n s = s.tickWave n ∧ ∃ t, run n s = .next t ∧ SameGenerator (s.ticks n) t ∧ SameHost (s.ticks n) t := by
  induction n generalizing s with
  | zero => exact ⟨rfl, s, rfl, by constructor <;> rfl, by constructor <;> rfl⟩
  | succ n ih =>
    obtain ⟨hlen, hall⟩ := ho
    obtain ⟨m, ms, hi⟩ := List.exists_cons_of_length_pos (Nat.zero_lt_of_lt hlen)
    rw [hi, List.take_succ_cons, List.forall_mem_cons] at hall
    obtain ⟨⟨htick, hrst⟩, hrest⟩ := hall
    have hm : s.moment = m := by rw [State.moment, hi]
    have hstep := step_of_tick h.legal (hm ▸ hrst) (hm ▸ htick)
    have hevent := s.event_eq_tick_iff.mpr ⟨hm ▸ hrst, hm ▸ htick⟩
    have hinputs : (s.afterTick.past s.waiting).inputs = ms := by
      rw [s.afterTick_eq_withGenerator]
      exact congrArg List.tail hi
    have hlen' : n ≤ ms.length := by simpa [hi] using hlen
    obtain ⟨hw, t, hrun, hg, hh⟩ := ih (h.afterTick.past s.waiting) (by rw [OnlyTicks, hinputs]; exact ⟨hlen', hrest⟩)
    rw [State.ticks_past] at hg hh
    refine ⟨?_, t, ?_, { hg with }, { hh with }⟩
    · rw [waveform, hstep, State.tickWave_succ, ← State.tickWave_past _ s.waiting, ← hw]
      exact if_pos hevent
    · rw [run, hstep]
      exact hrun

end Sys2Proof.Machine
end

/-! ### A frame (O55, O56) -/

section
namespace Sys2Proof.Machine

/-- A slot with nothing but its ticks. -/
theorem State.Inv.slotRun {s : State} (h : s.Inv) (hp : s.phase = .startBit) : SlotRun s.ticks (fun k => s.ticks (k + 1)) where
  start := h
  phase := hp
  legal := fun k _ => (h.ticks k).legal
  tick := fun k _ => s.ticks_succ k ▸ gStep_of_legal (h.ticks k).legal
  host := fun _ _ => by constructor <;> rfl
  params := fun k _ => s.ticks_params k

/-- Ticks alone leave the mask as it is, so every data bit is computed with the same one. -/
theorem State.Inv.tickWave_slot {s : State} (h : s.Inv) (hp : s.phase = .startBit) :
    s.tickWave 10 = slotWave s.params (s.buf.get s.slotIndex) s.blackout := by
  have hrun := h.slotRun hp
  refine map_range_eq_slotWave hrun.startInterval (fun j hj => ?_) hrun.stopInterval
  rw [hrun.dataInterval hj, (s.ticks_sameHost j).blackout]
  rfl

/-- The last slot of a frame is followed by the Break of the next one, which samples `LAST` (R130). -/
theorem State.Inv.ticks_lastSlot {s : State} (h : s.Inv) (hp : s.phase = .startBit) (htx : s.txen = true)
    (hr : s.remain = 0) : (s.ticks 10).phase = .brk ∧ (s.ticks 10).remain = s.last ∧ (s.ticks 10).flast = s.last := by
  have hs : StopPending s (s.ticks 9) := (h.slotRun hp).stopPending
  have hh := s.ticks_sameHost 9
  rw [s.ticks_succ 9, State.afterTick_of_stopBits hs.phase]
  simp [hs.remain, hr, hh.txen, htx, hh.last]

/-- Another slot is followed by the one with the next index (R130). -/
theorem State.Inv.ticks_slot {s : State} (h : s.Inv) (hp : s.phase = .startBit) (htx : s.txen = true) {n : Nat}
    (hr : s.remain.toNat = n + 1) :
    (s.ticks 10).phase = .startBit ∧ (s.ticks 10).remain.toNat = n ∧ (s.ticks 10).slotIndex = s.slotIndex + 1 := by
  have hs : StopPending s (s.ticks 9) := (h.slotRun hp).stopPending
  have hne : s.remain ≠ 0 := by rintro he; simp [he] at hr
  have hdec : (s.remain - 1).toNat = n := by bv_omega
  have hle := State.slotIndex_add_remain h.legal
  rw [s.ticks_succ 9, State.afterTick_of_stopBits hs.phase]
  simp only [State.slotIndex, hs.remain, hs.flast, hne, if_false, (s.ticks_sameHost 9).txen, htx, if_true, hdec,
    true_and] at hle ⊢
  omega

/-- With `n` slots after this one the frame goes on with these `n + 1` slots, and then to the Break of the next one. -/
theorem State.Inv.ticks_slots {n : Nat} {s : State} (h : s.Inv) (hp : s.phase = .startBit) (htx : s.txen = true)
    (hr : s.remain.toNat = n) :
    s.tickWave (10 * (n + 1)) = slotsWave s.params s.buf s.blackout (n + 1) s.slotIndex ∧
    (s.ticks (10 * (n + 1))).phase = .brk ∧ (s.ticks (10 * (n + 1))).remain = s.last ∧
    (s.ticks (10 * (n + 1))).flast = s.last := by
  induction n generalizing s with
  | zero => exact ⟨(h.tickWave_slot hp).trans (List.append_nil _).symm, h.ticks_lastSlot hp htx (BitVec.eq_of_toNat_eq hr)⟩
  | succ n ih =>
    obtain ⟨hphase, hremain, hindex⟩ := h.ticks_slot hp htx hr
    have hh := s.ticks_sameHost 10
    obtain ⟨hwave, hend⟩ := ih (h.ticks 10) hphase (hh.txen.trans htx) hremain
    rw [hh.buf, hh.blackout, State.ticks_params, hindex] at hwave
    rw [hh.last, ← State.ticks_add] at hend
    have hten : 10 * (n + 1 + 1) = 10 + 10 * (n + 1) := by omega
    rw [hten, State.tickWave_add, h.tickWave_slot hp, hwave]
    exact ⟨rfl, hend⟩

/-- Break and MarkAfterBreak lead to the start bit with the cursor where it was (R122, R123). -/
theorem State.Inv.ticks_head {s : State} (h : s.Inv) (hp : s.phase = .brk) :
    s.tickWave 2 = [⟨false, s.params.durBreak, .brk⟩, ⟨true, s.params.durMab, .markAfterBreak⟩] ∧
    (s.ticks 2).phase = .startBit ∧ (s.ticks 2).remain = s.remain ∧ (s.ticks 2).flast = s.flast := by
  have hone := State.afterTick_of_brk hp
  have hmab : s.afterTick.phase = .markAfterBreak := by rw [hone]
  have htwo : s.ticks 2 = s.afterTick.afterTick := rfl
  constructor
  · rw [State.tickWave_succ, State.tickWave_succ, intervalOf_afterTick, intervalOf_afterTick, hmab, hp,
      h.pendLow (.inl hp), State.afterTick_params, h.afterTick.pendHigh (.inl hmab)]
    rfl
  · rw [htwo, State.afterTick_of_markAfterBreak hmab, hone]
    exact ⟨rfl, rfl, rfl⟩

/-- From the head of a frame, ticks alone give its waveform and lead to the head of the next (R151, R152, R159). -/
theorem State.Inv.ticks_frame {s : State} (h : s.Inv) (hp : s.phase = .brk) (hr : s.remain = s.flast) (htx : s.txen = true) :
    s.tickWave (frameTicks s.flast.toNat) = frameWave s.params s.buf s.blackout s.flast.toNat ∧
    (s.ticks (frameTicks s.flast.toNat)).phase = .brk ∧ (s.ticks (frameTicks s.flast.toNat)).remain = s.last ∧
    (s.ticks (frameTicks s.flast.toNat)).flast = s.last := by
  obtain ⟨hhead, hphase, hremain, hflast⟩ := h.ticks_head hp
  have hh := s.ticks_sameHost 2
  have hindex : (s.ticks 2).slotIndex = 0 := by rw [State.slotIndex, hremain, hflast, hr, Nat.sub_self]
  obtain ⟨hslots, hend⟩ := (h.ticks 2).ticks_slots hphase (hh.txen.trans htx) (congrArg BitVec.toNat (hremain.trans hr))
  rw [hh.buf, hh.blackout, State.ticks_params, hindex] at hslots
  rw [hh.last, ← State.ticks_add] at hend
  rw [frameTicks, State.tickWave_add, hhead, hslots]
  exact ⟨rfl, hend⟩

/-- Settles O55: while only ticks come, the steps do what the ticks do. -/
theorem frameWaveformAndLength : Obligations.FrameWaveformAndLength := by
  intro s h hp hr htx ho
  obtain ⟨hwave, hphase, hremain, hflast⟩ := h.ticks_frame hp hr htx
  obtain ⟨hsteps, t, hrun, hg, hh⟩ := ho.run_waveform h
  refine ⟨hsteps.trans hwave, t, hrun, hg.phase.trans hphase, hg.remain.trans hremain, hg.flast.trans hflast, ?_,
    (s.ticks_sameHost _).trans hh⟩
  exact hg.pend.trans ((h.ticks _).pendLow (.inl hphase))

/-! #### Sums over a frame -/

theorem duration_cons (interval : Byte → Nat) (w : WaveInterval) (ws : List WaveInterval) :
    duration interval (w :: ws) = interval w.reload + duration interval ws := rfl

/-- The sum of the reload values is the duration under the literal reading of them. -/
theorem reloadSum_eq_duration (ws : List WaveInterval) : reloadSum ws = duration BitVec.toNat ws := by
  induction ws with
  | nil => rfl
  | cons w ws ih => rw [reloadSum, duration_cons, ih]

theorem duration_append (interval : Byte → Nat) (ws vs : List WaveInterval) :
    duration interval (ws ++ vs) = duration interval ws + duration interval vs := by
  induction ws with
  | nil => exact (Nat.zero_add _).symm
  | cons w ws ih => rw [List.cons_append, duration_cons, duration_cons, ih, Nat.add_assoc]

theorem duration_dataIntervals (interval : Byte → Nat) (p : Params) (v m : Byte) (bits : List Nat) :
    duration interval (bits.map (dataInterval p v m)) = bits.length * interval p.durBit := by
  induction bits with
  | nil => exact (Nat.zero_mul _).symm
  | cons b bits ih => rw [List.map_cons, duration_cons, ih, List.length_cons, Nat.succ_mul, Nat.add_comm]; rfl

theorem duration_slotWave (interval : Byte → Nat) (p : Params) (v m : Byte) :
    duration interval (slotWave p v m) = 9 * interval p.durBit + interval p.durStop := by
  simp only [slotWave, duration, duration_append, duration_dataIntervals, List.length_range]
  omega

theorem duration_slotsWave (interval : Byte → Nat) (p : Params) (buf : Memory) (m : Byte) (n j : Nat) :
    duration interval (slotsWave p buf m n j) = n * (9 * interval p.durBit + interval p.durStop) := by
  induction n generalizing j with
  | zero => exact (Nat.zero_mul _).symm
  | succ n ih => rw [slotsWave, duration_append, duration_slotWave, ih, Nat.succ_mul n, Nat.add_comm]

theorem duration_frameWave (interval : Byte → Nat) (p : Params) (buf : Memory) (m : Byte) (n : Nat) :
    duration interval (frameWave p buf m n) =
      interval p.durBreak + interval p.durMab + (n + 1) * (9 * interval p.durBit + interval p.durStop) := by
  rw [frameWave, duration_cons, duration_cons, duration_slotsWave, Nat.add_assoc]

theorem slotWave_length (p : Params) (v m : Byte) : (slotWave p v m).length = 10 := rfl

theorem slotsWave_length (p : Params) (buf : Memory) (m : Byte) (n j : Nat) : (slotsWave p buf m n j).length = 10 * n := by
  induction n generalizing j with
  | zero => rfl
  | succ n ih => rw [slotsWave, List.length_append, slotWave_length, ih, Nat.mul_succ, Nat.add_comm]

theorem frameWave_length (p : Params) (buf : Memory) (m : Byte) (n : Nat) : (frameWave p buf m n).length = frameTicks n := by
  rw [frameWave, List.length_cons, List.length_cons, slotsWave_length, frameTicks]
  omega

/-- Settles O56: both sums are durations, and the last one is at the default parameters. -/
theorem frameReloadSum : Obligations.FrameReloadSum := by
  intro p buf m n interval
  refine ⟨frameWave_length p buf m n, ?_, duration_frameWave interval p buf m n, ?_⟩
  · rw [reloadSum_eq_duration, duration_frameWave]
  · rw [reloadSum_eq_duration, duration_frameWave, Nat.mul_comm]
    rfl

end Sys2Proof.Machine
end

/-! ### Halt and resume (O57, O58) -/

section
namespace Sys2Proof.Machine

/-- The number of ticks after which a phase is sure to have led to Idle, with `TXEN = 0` (R157). -/
def ticksToHalt : Phase → Nat
  | .brk => 12
  | .markAfterBreak => 11
  | .startBit => 10
  | .dataBits => 9
  | .stopBits => 1
  | .idle => 0

theorem State.ticks_of_idle {s : State} (htx : s.txen = false) (hp : s.phase = .idle) (k : Nat) : (s.ticks k).phase = .idle := by
  induction k with
  | zero => exact hp
  | succ k ih =>
    rw [State.ticks_succ, State.afterTick_of_idle ih, (s.ticks_sameHost k).txen, htx]
    rfl

/-- Within `n` ticks the generator is Idle, with the pin high. -/
def HaltsWithin (n : Nat) (s : State) : Prop := ∃ k, k ≤ n ∧ (s.ticks k).phase = .idle ∧ (s.ticks k).pin = true

theorem HaltsWithin.afterTick {n : Nat} {s : State} (h : HaltsWithin n s.afterTick) : HaltsWithin (n + 1) s := by
  obtain ⟨k, hk, hidle⟩ := h
  exact ⟨k + 1, Nat.succ_le_succ hk, hidle⟩

theorem HaltsWithin.mono {m n : Nat} {s : State} (h : HaltsWithin m s) (hmn : m ≤ n) : HaltsWithin n s := by
  obtain ⟨k, hk, hidle⟩ := h
  exact ⟨k, hk.trans hmn, hidle⟩

theorem State.Inv.halts_of_stopBits {s : State} (h : s.Inv) (htx : s.txen = false) (hp : s.phase = .stopBits) :
    HaltsWithin 1 s := by
  refine ⟨1, Nat.le_refl 1, ?_⟩
  rw [← State.ticks_afterTick, State.ticks_zero, State.afterTick_of_stopBits hp, htx]
  exact ⟨rfl, h.pendHigh (.inr (.inl hp))⟩

/-- With `d` data bits after this one the halt is `d + 2` ticks away: this bit, those, and the stop bits. -/
theorem State.Inv.halts_of_dataBits {d : Nat} {s : State} (h : s.Inv) (htx : s.txen = false) (hp : s.phase = .dataBits)
    (hd : s.bitpos.toNat + d = 7) : HaltsWithin (d + 2) s := by
  have htx' : s.afterTick.txen = false := s.afterTick_sameHost.txen.trans htx
  induction d generalizing s with
  | zero =>
    have hlast : s.afterTick.phase = .stopBits := by rw [State.afterTick_of_lastDataBit hp (by bv_omega)]
    exact (h.afterTick.halts_of_stopBits htx' hlast).afterTick
  | succ d ih =>
    have hnext := State.afterTick_of_dataBit hp (by omega)
    have hphase : s.afterTick.phase = .dataBits := by rw [hnext]; exact hp
    have hbitpos : s.afterTick.bitpos.toNat + d = 7 := by rw [hnext]; dsimp only; bv_omega
    exact (ih h.afterTick htx' hphase hbitpos (s.afterTick.afterTick_sameHost.txen.trans htx')).afterTick

section
variable {s : State} (h : s.Inv) (htx : s.txen = false)
include h htx

theorem State.Inv.halts_of_startBit (hp : s.phase = .startBit) : HaltsWithin 10 s := by
  have hnext := State.afterTick_of_startBit hp
  exact (h.afterTick.halts_of_dataBits (d := 7) (s.afterTick_sameHost.txen.trans htx) (by rw [hnext])
    (by rw [hnext]; rfl)).afterTick

theorem State.Inv.halts_of_markAfterBreak (hp : s.phase = .markAfterBreak) : HaltsWithin 11 s :=
  (h.afterTick.halts_of_startBit (s.afterTick_sameHost.txen.trans htx)
    (by rw [State.afterTick_of_markAfterBreak hp])).afterTick

theorem State.Inv.halts_of_brk (hp : s.phase = .brk) : HaltsWithin 12 s :=
  (h.afterTick.halts_of_markAfterBreak (s.afterTick_sameHost.txen.trans htx)
    (by rw [State.afterTick_of_brk hp])).afterTick

/-- Each phase leads on to the next, down to the stop bits and Idle. -/
theorem State.Inv.halts (hp : s.phase ≠ .idle) : HaltsWithin (ticksToHalt s.phase) s := by
  cases hq : s.phase with
  | brk => exact h.halts_of_brk htx hq
  | markAfterBreak => exact h.halts_of_markAfterBreak htx hq
  | startBit => exact h.halts_of_startBit htx hq
  | dataBits =>
    exact (h.halts_of_dataBits (d := 7 - s.bitpos.toNat) htx hq (by omega)).mono (by simp only [ticksToHalt]; omega)
  | stopBits => exact h.halts_of_stopBits htx hq
  | idle => exact absurd hq hp

/-- A halted generator stays Idle, with the line high (R131, R157). -/
theorem State.Inv.stays_idle (hp : s.phase = .idle) (k : Nat) : ∃ u, Machine.runTicks (k + 1) s = .next u ∧ u.phase = .idle ∧
    u.pin = true ∧ u.reload = s.params.durIdle := by
  have hk := State.ticks_of_idle htx hp k
  refine ⟨_, h.runTicks (k + 1), State.ticks_of_idle htx hp (k + 1), ?_⟩
  rw [State.ticks_succ, State.afterTick_of_idle hk, State.ticks_params]
  exact ⟨(h.ticks k).pendHigh (.inr (.inr hk)), rfl⟩

/-- The halt of O57: in Idle it has come already. -/
theorem State.Inv.exists_halt : ∃ k, k ≤ ticksToHalt s.phase ∧ (s.ticks k).phase = .idle ∧
    (s.phase ≠ .idle → (s.ticks k).pin = true) := by
  by_cases hp : s.phase = .idle
  · exact ⟨0, Nat.zero_le _, hp, fun hne => absurd hp hne⟩
  · obtain ⟨k, hk, hidle, hpin⟩ := h.halts htx hp
    exact ⟨k, hk, hidle, fun _ => hpin⟩

end

theorem ticksToHalt_le (p : Phase) : ticksToHalt p ≤ 12 ∧ (p ≠ .brk ∧ p ≠ .markAfterBreak → ticksToHalt p ≤ 10) := by
  cases p <;> decide

/-- Settles O57: the phases lead down to Idle, and Idle stays. -/
theorem haltWithinTwelveTicks : Obligations.HaltWithinTwelveTicks := by
  intro s h htx
  obtain ⟨k, hk, hidle, hpin⟩ := h.exists_halt htx
  obtain ⟨h12, h10⟩ := ticksToHalt_le s.phase
  refine ⟨k, s.ticks k, hk.trans h12, fun hp => hk.trans (h10 hp), h.runTicks k, hidle, hpin, ?_⟩
  rw [← s.ticks_params k]
  exact (h.ticks k).stays_idle ((s.ticks_sameHost k).txen.trans htx) hidle

/-- Settles O58: the Idle step leads to StartBit with the cursor where it was. -/
theorem resumeStartsAtTheSlotWithoutBreak : Obligations.ResumeStartsAtTheSlotWithoutBreak := by
  intro s h hp htx
  have hidle := State.afterTick_of_idle hp
  have hstart : s.afterTick.phase = .startBit := by rw [hidle, htx]; rfl
  refine ⟨_, _, gStep_of_legal h.legal, ?_, gStep_of_legal h.afterTick.legal, ?_, ?_⟩
  · rw [intervalOf_afterTick, h.pendHigh (.inr (.inr hp)), hp]
    rfl
  · rw [intervalOf_afterTick, h.afterTick.pendLow (.inr hstart), hstart, State.afterTick_params]
    rfl
  · rw [State.afterTick_of_startBit hstart, hidle]
    exact ⟨rfl, rfl, rfl, rfl⟩

end Sys2Proof.Machine
end

/-! ### The timed waveform (O59) -/

section
namespace Sys2Proof.Machine

section
variable (interval : Byte → Nat) (e d : Nat → Nat)

theorem timedWaveform_levels (k t : Nat) (ws : List WaveInterval) :
    (timedWaveform interval e d k t ws).map TimedLevel.level = ws.map WaveInterval.level := by
  induction ws generalizing k t with
  | nil => rfl
  | cons w ws ih => rw [timedWaveform, List.map_cons, List.map_cons, ih]

/-- The first level starts with its tick and the reaction delay (R141). -/
theorem timedWaveform_head_start {k t : Nat} {ws : List WaveInterval} {x : TimedLevel}
    (h : (timedWaveform interval e d k t ws)[0]? = some x) : x.start = t + d k := by
  cases ws with
  | nil => cases h
  | cons w ws => cases h; rfl

theorem timedWaveform_contiguous {k t i : Nat} {ws : List WaveInterval} {x y : TimedLevel}
    (hx : (timedWaveform interval e d k t ws)[i]? = some x) (hy : (timedWaveform interval e d k t ws)[i + 1]? = some y) :
    x.stop = y.start := by
  induction ws generalizing k t i with
  | nil => cases hx
  | cons w ws ih =>
    cases i with
    | zero =>
      cases hx
      exact (timedWaveform_head_start interval e d hy).symm
    | succ i => exact ih hx hy

end

theorem timedWaveform_last_stop (interval : Byte → Nat) {k t : Nat} {ws : List WaveInterval} {x : TimedLevel}
    (h : (timedWaveform interval (fun _ => 0) (fun _ => 0) k t ws).getLast? = some x) : x.stop = t + duration interval ws := by
  induction ws generalizing k t with
  | nil => cases h
  | cons w ws ih =>
    cases ws with
    | nil => cases h; rfl
    | cons v vs =>
      have := ih (k := k + 1) (t := nextTickTime interval t w.reload 0) h
      rw [this, nextTickTime, duration_cons interval w, Nat.add_zero, Nat.add_assoc]

/-- Settles O59, by induction on the intervals for each part. -/
theorem delaysChangeTimesOnly : Obligations.DelaysChangeTimesOnly :=
  fun interval e d k t ws => ⟨timedWaveform_levels interval e d k t ws,
    fun _ _ _ hx hy => timedWaveform_contiguous interval e d hx hy, fun _ h => timedWaveform_last_stop interval h⟩

end Sys2Proof.Machine
end

/-! ## PROOFS for the family 41_host_commands.md

The writes of a RESET first, whose number and order are the long part; then the other commands, and the step that takes a byte of
a command. -/

/-! ### The writes of a RESET, one by one (O14, O34) -/

section
namespace Sys2Proof.Machine

theorem HostEffect.dec {s u : State} (h : HostEffect s u) : u.dec = s.dec := by cases h <;> rfl

/-- One write step takes one of the writes left off the list and does it; with the last one it completes the command (R186). -/
theorem State.resetStep_shape {s : State} (h : s.resetSeq ≠ []) (pick : Nat) :
    ∃ w rest, (w :: rest).Perm s.resetSeq ∧
      s.resetStep pick =
        if rest = [] then (w.apply { s with resetSeq := rest }).complete .reset [0xA2]
        else w.apply { s with resetSeq := rest } := by
  obtain ⟨k, w, hk, -, hw, he⟩ := State.resetStep_cases h pick
  obtain ⟨_, rfl⟩ := List.getElem?_eq_some_iff.mp hw
  exact ⟨_, _, List.getElem_cons_eraseIdx_perm hk, he⟩

theorem State.resetStep_length {s : State} (h : s.resetSeq ≠ []) (pick : Nat) :
    (s.resetStep pick).resetSeq.length + 1 = s.resetSeq.length := by
  obtain ⟨w, rest, hp, he⟩ := State.resetStep_shape h pick
  have hrest : (s.resetStep pick).resetSeq = rest := by
    rw [he]
    split
    · exact w.apply_resetSeq _
    · exact w.apply_resetSeq _
  rw [hrest, ← hp.length_eq, List.length_cons]

/-- `s` with the registers that a RESET writes, and the list of its writes, as they are in `r` (R179). -/
def State.withReset (s r : State) : State :=
  { s with
    buf := r.buf, blackout := r.blackout, last := r.last, txen := r.txen, lastnop := r.lastnop, resp := r.resp,
    resetSeq := r.resetSeq }

theorem ResetWrite.apply_eq_withReset (w : ResetWrite) (s : State) (rest : List ResetWrite) :
    w.apply { s with resetSeq := rest } = s.withReset (w.apply { s with resetSeq := rest }) := by cases w <;> rfl

/-- A write step moves nothing that a RESET does not write. -/
theorem State.resetStep_eq_withReset (s : State) (pick : Nat) : s.resetStep pick = s.withReset (s.resetStep pick) := by
  by_cases h : s.resetSeq = []
  · rw [State.resetStep_nil h]
    rfl
  · obtain ⟨w, rest, -, he⟩ := State.resetStep_shape h pick
    have hw := w.apply_eq_withReset s rest
    rw [he]
    split
    · exact congrArg (State.complete · .reset [0xA2]) hw
    · exact hw

theorem State.resetSteps_eq_withReset (s : State) (picks : List Nat) :
    picks.foldl State.resetStep s = s.withReset (picks.foldl State.resetStep s) := by
  induction picks generalizing s with
  | nil => rfl
  | cons p ps ih => calc
      ps.foldl State.resetStep (s.resetStep p)
        = (s.resetStep p).withReset (ps.foldl State.resetStep (s.resetStep p)) := ih _
      _ = (s.withReset (s.resetStep p)).withReset (ps.foldl State.resetStep (s.resetStep p)) := by
        rw [← s.resetStep_eq_withReset p]
      _ = s.withReset (ps.foldl State.resetStep (s.resetStep p)) := rfl

/-- The register that a write of RESET is to has the value it writes (R179). -/
def ResetWrite.Holds : ResetWrite → State → Prop
  | .buf i, s => s.buf.get i.val = 0
  | .blackout, s => s.blackout = blackoutOff
  | .last, s => s.last = 512
  | .txen, s => s.txen = s.params.txenReset

/-- What a write's register holds is read off the shared registers and the parameters. -/
theorem ResetWrite.Holds.congr {w : ResetWrite} {s u : State} (h : w.Holds s) (hbuf : u.buf = s.buf)
    (hblackout : u.blackout = s.blackout) (hlast : u.last = s.last) (htxen : u.txen = s.txen)
    (hparams : u.params = s.params) : w.Holds u := by
  cases w with
  | buf i => exact (congrArg (Memory.get · i.val) hbuf).trans h
  | blackout => exact hblackout.trans h
  | last => exact hlast.trans h
  | txen => exact (htxen.trans h).trans (congrArg Params.txenReset hparams.symm)

theorem ResetWrite.holds_apply (w : ResetWrite) (s : State) : w.Holds (w.apply s) := by
  cases w with
  | buf i => exact s.buf.get_set_same i.val 0
  | blackout | last | txen => rfl

/-- A write of RESET undoes no other. -/
theorem ResetWrite.Holds.apply {v : ResetWrite} {s : State} (h : v.Holds s) (w : ResetWrite) : v.Holds (w.apply s) := by
  cases v with
  | buf i =>
    cases w with
    | buf j =>
      show (s.buf.set j.val 0).get i.val = 0
      rw [Memory.get_set]
      split
      · rfl
      · exact h
    | blackout | last | txen => exact h
  | blackout =>
    cases w with
    | blackout => rfl
    | buf | last | txen => exact h
  | last =>
    cases w with
    | last => rfl
    | buf | blackout | txen => exact h
  | txen =>
    cases w with
    | txen => rfl
    | buf | blackout | last => exact h

theorem ResetWrite.apply_beyond (w : ResetWrite) (s : State) {a : Nat} (ha : 512 < a) :
    (w.apply s).buf.get a = s.buf.get a := by
  cases w with
  | buf i => exact s.buf.get_set_other 0 (by omega)
  | blackout | last | txen => rfl

/-- `u` is in the RESET whose writes are all to be done in `s`, or just past it. A write that is off the list is done, and
the command completes with the last of them (R186, log 10). -/
structure Resetting (s u : State) : Prop where
  done : ∀ w, w ∉ u.resetSeq → w.Holds u
  beyond : ∀ a, 512 < a → u.buf.get a = s.buf.get a
  waits : u.resetSeq ≠ [] → u.lastnop = s.lastnop ∧ u.resp = s.resp
  completed : u.resetSeq = [] → u.lastnop = false ∧ u.resp = s.resp ++ [0xA2]
  dec : u.dec = s.dec
  params : u.params = s.params

theorem Resetting.start {s : State} (h : s.resetSeq = ResetWrite.all) : Resetting s s where
  done := fun w hw => absurd (h ▸ w.mem_all) hw
  beyond := fun _ _ => rfl
  waits := fun _ => ⟨rfl, rfl⟩
  completed := fun hnil => by cases h.symm.trans hnil
  dec := rfl
  params := rfl

section
variable {s u : State} (h : Resetting s u)
include h

/-- A tick between the writes leaves the host's registers as they are (R36, R229). -/
theorem Resetting.sameHost {v : State} (hh : SameHost u v) (hp : v.params = u.params) : Resetting s v where
  done := fun w hw => (h.done w (hh.resetSeq ▸ hw)).congr hh.buf hh.blackout hh.last hh.txen hp
  beyond := hh.buf ▸ h.beyond
  waits := by rw [hh.resetSeq, hh.lastnop, hh.resp]; exact h.waits
  completed := by rw [hh.resetSeq, hh.lastnop, hh.resp]; exact h.completed
  dec := hh.dec.trans h.dec
  params := hp.trans h.params

theorem Resetting.resetStep (hn : u.resetSeq ≠ []) (pick : Nat) : Resetting s (u.resetStep pick) := by
  obtain ⟨w, rest, hperm, he⟩ := State.resetStep_shape hn pick
  obtain ⟨hlastnop, hresp⟩ := h.waits hn
  have hw := w.apply_effect { u with resetSeq := rest }
  have hseq := w.apply_resetSeq { u with resetSeq := rest }
  have hdone (x : ResetWrite) (hx : x ∉ rest) : x.Holds (w.apply { u with resetSeq := rest }) := by
    by_cases hxw : x = w
    · exact hxw ▸ w.holds_apply _
    · have hxu : x ∉ u.resetSeq := by rw [← hperm.mem_iff, List.mem_cons]; exact not_or.mpr ⟨hxw, hx⟩
      have hxs : x.Holds { u with resetSeq := rest } := (h.done x hxu).congr rfl rfl rfl rfl rfl
      exact hxs.apply w
  have hbeyond (a : Nat) (ha : 512 < a) : (w.apply { u with resetSeq := rest }).buf.get a = s.buf.get a :=
    (w.apply_beyond _ ha).trans (h.beyond a ha)
  rw [he]
  split
  · next hlast =>
    exact {
      done := fun x hx => (hdone x fun hr => hx (hseq ▸ hr)).congr rfl rfl rfl rfl rfl
      beyond := hbeyond
      waits := fun hne => absurd (hseq.trans hlast) hne
      completed := fun _ => ⟨rfl, congrArg (· ++ [0xA2]) (hw.resp.trans hresp)⟩
      dec := hw.dec.trans h.dec
      params := hw.params.trans h.params }
  · next hmore =>
    exact {
      done := fun x hx => hdone x fun hr => hx (hseq ▸ hr)
      beyond := hbeyond
      waits := fun _ => ⟨hw.lastnop.trans hlastnop, hw.resp.trans hresp⟩
      completed := fun hnil => absurd (hseq.symm.trans hnil) hmore
      dec := hw.dec.trans h.dec
      params := hw.params.trans h.params }

/-- With no write left the shared state is at its defaults (R179). -/
theorem Resetting.restored (hn : u.resetSeq = []) :
    (∀ a, a ≤ 512 → u.buf.get a = 0) ∧ u.blackout = blackoutOff ∧ u.last = 512 ∧ u.txen = s.params.txenReset := by
  have hall (w : ResetWrite) : w.Holds u := h.done w (by simp [hn])
  exact ⟨fun a ha => hall (.buf ⟨a, Nat.lt_succ_of_le ha⟩), hall .blackout, hall .last, h.params ▸ hall .txen⟩

end

/-- Some write steps, whatever is chosen at each: as many fewer are left. -/
theorem Resetting.resetSteps {s u : State} (h : Resetting s u) (picks : List Nat) (hlen : picks.length ≤ u.resetSeq.length) :
    Resetting s (picks.foldl State.resetStep u) ∧
    (picks.foldl State.resetStep u).resetSeq.length = u.resetSeq.length - picks.length := by
  induction picks generalizing u with
  | nil => exact ⟨h, rfl⟩
  | cons p ps ih =>
    have hn : u.resetSeq ≠ [] := List.ne_nil_of_length_pos (Nat.zero_lt_of_lt hlen)
    have hone := State.resetStep_length hn p
    simp only [List.length_cons] at hlen ⊢
    obtain ⟨hr, hl⟩ := ih (h.resetStep hn p) (by omega)
    exact ⟨hr, hl.trans (by omega)⟩

/-- Settles O14: write steps keep `Resetting`, and count the writes left down to none. -/
theorem guardedResetRestoresTheSharedState : Obligations.GuardedResetRestoresTheSharedState := by
  refine ⟨ResetWrite.all_length, ResetWrite.all_nodup, ResetWrite.mem_all, fun s hg => ?_⟩
  have hstart : Resetting s.beginReset s.beginReset := Resetting.start rfl
  have hlen : s.beginReset.resetSeq.length = 516 := ResetWrite.all_length
  refine ⟨s.beginReset, exec_reset_guarded hg, rfl, fun picks hlt => ?_, fun picks heq => ?_⟩
  · obtain ⟨hr, hl⟩ := hstart.resetSteps picks (by omega)
    rw [hlen] at hl
    obtain ⟨hlastnop, hresp⟩ := hr.waits (List.ne_nil_of_length_pos (by omega))
    exact ⟨hl, hlastnop.trans hg, hresp⟩
  · obtain ⟨hr, hl⟩ := hstart.resetSteps picks (by omega)
    have hnil := List.eq_nil_of_length_eq_zero (hl.trans (by omega))
    obtain ⟨hbuf, hblackout, hlast, htxen⟩ := hr.restored hnil
    obtain ⟨hlastnop, hresp⟩ := hr.completed hnil
    refine ⟨_, rfl, ?_, hbuf, hr.beyond⟩
    have hframe := s.beginReset.resetSteps_eq_withReset picks
    rwa [State.withReset, hblackout, hlast, htxen, hlastnop, hresp, hnil] at hframe

/-- A step with a RESET in progress and neither tick nor power-on reset is a write step (R67, R186). -/
theorem step_of_resetWrite {s : State} (hl : s.legal = true) (hr : s.moment.rst = false) (ht : s.moment.tick = false)
    (hn : s.resetSeq ≠ []) : step s = .next ((s.past s.waiting).resetStep s.moment.pick) := by
  have hn' : s.arrived.resetSeq ≠ [] := hn
  have he : s.event = .resetWrite s.moment.pick := by simp [State.event, State.serves, hr, ht, hn']
  rw [step_of_legal hl, he]
  rfl

/-- Settles O34: the step is a write step, and only one write left makes the rest of the list empty. -/
theorem stepDoesOneResetWrite : Obligations.StepDoesOneResetWrite := by
  intro s hl hr ht hn
  obtain ⟨k, w, hk, -, hw, he⟩ := State.resetStep_cases (s := s.past s.waiting) hn s.moment.pick
  refine ⟨k, w, _, hw, rfl, ?_⟩
  have hlast : (s.past s.waiting).resetSeq.eraseIdx k = [] ↔ s.resetSeq.length = 1 := by
    have hlen : (s.resetSeq.eraseIdx k).length = s.resetSeq.length - 1 := List.length_eraseIdx_of_lt hk
    have hpos := List.length_pos_iff.mpr hn
    show s.resetSeq.eraseIdx k = [] ↔ _
    rw [← List.length_eq_zero_iff]
    omega
  rw [step_of_resetWrite hl hr ht hn, he]
  by_cases h1 : s.resetSeq.length = 1
  · rw [if_pos (hlast.mpr h1), if_pos h1, State.complete, (w.apply_effect _).resp]
    rfl
  · rw [if_neg (mt hlast.mp h1), if_neg h1]
    rfl

end Sys2Proof.Machine
end

/-! ### A RESET between ticks and bytes (O52) -/

section
namespace Sys2Proof.Machine

/-- A step without a power-on reset keeps on with the RESET: it serves a tick, or does one of the writes left. -/
theorem Resetting.step {s u : State} (h : Resetting s u) (hl : u.legal = true) (hr : u.moment.rst = false)
    (hn : u.moment.tick = false → u.resetSeq ≠ []) :
    ∃ v, step u = .next v ∧ Resetting s v ∧ v.legal = true ∧ v.inputs = u.inputs.tail ∧ v.rxQueue = u.waiting ∧
      v.resetSeq.length + (if !u.moment.tick then 1 else 0) = u.resetSeq.length := by
  cases ht : u.moment.tick with
  | true =>
    have hh : SameHost u (u.afterTick.past u.waiting) := { u.afterTick_sameHost with }
    refine ⟨_, step_of_tick hl hr ht, h.sameHost hh u.afterTick_params, State.afterTick_legal hl, ?_, rfl,
      congrArg List.length hh.resetSeq⟩
    rw [u.afterTick_eq_withGenerator]
    rfl
  | false =>
    have hp : Resetting s (u.past u.waiting) := h.sameHost (by constructor <;> rfl) rfl
    have hne : (u.past u.waiting).resetSeq ≠ [] := hn ht
    refine ⟨_, step_of_resetWrite hl hr ht hne, hp.resetStep hne _, State.resetStep_legal hne _ hl, ?_, ?_,
      State.resetStep_length hne _⟩
    · rw [State.resetStep_eq_withReset]
      rfl
    · rw [State.resetStep_eq_withReset]
      rfl

/-- While moments without a power-on reset come, as many of them without a tick as writes are left, the RESET completes and every
byte waits. -/
theorem Resetting.run {s : State} {n : Nat} {u : State} (h : Resetting s u) (hl : u.legal = true) (hlen : n ≤ u.inputs.length)
    (hrst : ∀ m ∈ u.inputs.take n, m.rst = false) (hcount : (u.inputs.take n).countP (fun m => !m.tick) = u.resetSeq.length) :
    ∃ t, run n u = .next t ∧ Resetting s t ∧ t.resetSeq = [] ∧
      t.rxQueue = u.rxQueue ++ (u.inputs.take n).flatMap (fun m => m.rx.toList) := by
  induction n generalizing u with
  | zero => exact ⟨u, rfl, h, List.eq_nil_of_length_eq_zero hcount.symm, by simp⟩
  | succ n ih =>
    obtain ⟨m, ms, hi⟩ := List.exists_cons_of_length_pos (Nat.zero_lt_of_lt hlen)
    obtain rfl : u.moment = m := by rw [State.moment, hi]
    rw [hi, List.take_succ_cons] at hrst hcount
    obtain ⟨hr, hrest⟩ := List.forall_mem_cons.mp hrst
    rw [List.countP_cons] at hcount
    have hn (ht : u.moment.tick = false) : u.resetSeq ≠ [] := by
      rw [ht] at hcount
      exact List.ne_nil_of_length_eq_add_one hcount.symm
    obtain ⟨v, hstep, hv, hvl, hvi, hvq, hvn⟩ := h.step hl hr hn
    rw [hi, List.tail_cons] at hvi
    obtain ⟨t, hrun, ht, hnil, hq⟩ :=
      ih hv hvl (by simpa [hi, hvi] using hlen) (hvi ▸ hrest) (by rw [hvi]; omega)
    refine ⟨t, by rw [Machine.run, hstep]; exact hrun, ht, hnil, ?_⟩
    rw [hq, hvq, hvi, hi, State.waiting, List.take_succ_cons, List.flatMap_cons, List.append_assoc]

/-- Settles O52: the 516 moments without a tick are the 516 write steps. -/
theorem resetCompletesUnderAnyInterleaving : Obligations.ResetCompletesUnderAnyInterleaving := by
  intro n s hl hall hlen hrst hcount
  obtain ⟨t, hrun, ht, hnil, hq⟩ :=
    (Resetting.start hall).run hl hlen hrst (hcount.trans (hall ▸ ResetWrite.all_length).symm)
  obtain ⟨hbuf, hblackout, hlast, htxen⟩ := ht.restored hnil
  obtain ⟨hlastnop, hresp⟩ := ht.completed hnil
  exact ⟨t, hrun, hbuf, hblackout, hlast, htxen, hlastnop, hresp, hnil, ht.dec, hq⟩

end Sys2Proof.Machine
end

/-! ### Every order of the writes (O51) -/

section
namespace Sys2Proof.Machine

/-- The choices `picks` make the write steps from `s` do the writes of `order` one by one, in that order (R186). -/
structure Realises (picks : List Nat) (order : List ResetWrite) (s : State) : Prop where
  length : picks.length = order.length
  stepwise : ∀ k u, k ≤ order.length → u = (picks.take k).foldl State.resetStep s →
    u.resetSeq.Perm (order.drop k) ∧
    (k < order.length → u = { afterWrites (order.take k) s with resetSeq := u.resetSeq })
  completes : picks.foldl State.resetStep s =
    ({ afterWrites order s with resetSeq := [] } : State).complete .reset [0xA2]

@[simp] theorem afterWrites_nil (s : State) : afterWrites [] s = s := rfl

@[simp] theorem afterWrites_cons (w : ResetWrite) (ws : List ResetWrite) (s : State) :
    afterWrites (w :: ws) s = afterWrites ws (w.apply s) := rfl

/-- The writes do not read the list of writes left. -/
theorem afterWrites_setResetSeq (ws left : List ResetWrite) (s : State) :
    afterWrites ws { s with resetSeq := left } = { afterWrites ws s with resetSeq := left } := by
  induction ws generalizing s with
  | nil => rfl
  | cons w ws ih => rw [afterWrites_cons, afterWrites_cons, w.apply_setResetSeq, ih]

/-- Every write left can be chosen, by its place in the list. -/
theorem State.resetStep_idxOf {s : State} {w : ResetWrite} (h : w ∈ s.resetSeq) :
    s.resetStep (s.resetSeq.idxOf w) =
      if s.resetSeq.erase w = [] then ({ w.apply s with resetSeq := [] } : State).complete .reset [0xA2]
      else { w.apply s with resetSeq := s.resetSeq.erase w } := by
  have hlt : s.resetSeq.idxOf w < s.resetSeq.length := List.idxOf_lt_length_of_mem h
  have hpick : pickIndex (s.resetSeq.idxOf w) s.resetSeq.length = s.resetSeq.idxOf w := Nat.mod_eq_of_lt hlt
  rw [State.resetStep, hpick, List.getElem?_idxOf h, List.eraseIdx_idxOf_eq_erase]
  dsimp only
  split
  · next hlast => rw [hlast, w.apply_setResetSeq]
  · rw [w.apply_setResetSeq]

theorem Realises.single {s : State} {w : ResetWrite} (h : s.resetSeq = [w]) : Realises [s.resetSeq.idxOf w] [w] s := by
  have hmem : w ∈ s.resetSeq := by simp [h]
  have hstep := State.resetStep_idxOf hmem
  rw [if_pos (by simp [h])] at hstep
  refine ⟨rfl, fun k u hk hu => ?_, hstep⟩
  cases k with
  | zero =>
    subst hu
    exact ⟨h ▸ .refl _, fun _ => rfl⟩
  | succ k =>
    obtain rfl : k = 0 := by simpa using hk
    have hnil : u.resetSeq = [] := by
      rw [hu]
      exact congrArg State.resetSeq hstep
    exact ⟨hnil ▸ .refl _, fun hlt => absurd hlt (Nat.lt_irrefl _)⟩

theorem Realises.cons {s : State} {w : ResetWrite} {ws : List ResetWrite} {picks : List Nat}
    (hperm : (w :: ws).Perm s.resetSeq) (hne : ws ≠ [])
    (h : Realises picks ws { w.apply s with resetSeq := s.resetSeq.erase w }) :
    Realises (s.resetSeq.idxOf w :: picks) (w :: ws) s := by
  have hmem : w ∈ s.resetSeq := hperm.subset List.mem_cons_self
  have hws : ws.Perm (s.resetSeq.erase w) := by simpa using hperm.erase w
  have hstep := State.resetStep_idxOf hmem
  rw [if_neg fun hnil => hne (hnil ▸ hws).eq_nil] at hstep
  refine ⟨congrArg (· + 1) h.length, fun k u hk hu => ?_, ?_⟩
  · cases k with
    | zero =>
      subst hu
      exact ⟨hperm.symm, fun _ => rfl⟩
    | succ k =>
      rw [List.take_succ_cons, List.foldl_cons, hstep] at hu
      obtain ⟨hleft, hregs⟩ := h.stepwise k u (Nat.le_of_succ_le_succ hk) hu
      refine ⟨hleft, fun hlt => (hregs (Nat.lt_of_succ_lt_succ hlt)).trans ?_⟩
      rw [afterWrites_setResetSeq]
      rfl
  · rw [List.foldl_cons, hstep, h.completes, afterWrites_setResetSeq]
    rfl

theorem exists_realises {order : List ResetWrite} {s : State} (hperm : order.Perm s.resetSeq) (hne : order ≠ []) :
    ∃ picks, Realises picks order s := by
  induction order generalizing s with
  | nil => exact absurd rfl hne
  | cons w ws ih =>
    cases ws with
    | nil => exact ⟨_, .single (List.perm_singleton.mp hperm.symm)⟩
    | cons v vs =>
      have hrest : (v :: vs).Perm (s.resetSeq.erase w) := by simpa using hperm.erase w
      obtain ⟨picks, h⟩ := ih (s := { w.apply s with resetSeq := s.resetSeq.erase w }) hrest (by simp)
      exact ⟨_, .cons hperm (by simp) h⟩

/-- Settles O51: by induction on the order, each write is chosen by its place among those left. -/
theorem everyResetOrderIsAdmitted : Obligations.EveryResetOrderIsAdmitted := by
  intro s order hn hperm
  obtain ⟨picks, h⟩ := exists_realises hperm fun hnil => hn (hnil ▸ hperm).symm.eq_nil
  exact ⟨picks, h.length, h.stepwise, h.completes⟩

end Sys2Proof.Machine
end

/-! ### The commands that write an entry of `BUF` (O8, O10, O11) -/

section
namespace Sys2Proof.Machine

theorem latches_of_get {m : Memory} {a : Nat} {v : Byte} (h : m.get a = v) : Latches m a v := h ▸ latches_get m a

/-- Settles O8: the write is to entry 0, and what an entry holds is what its slot latches. -/
theorem setTxStartCodeWritesEntryZero : Obligations.SetTxStartCodeWritesEntryZero :=
  fun p s => ⟨Laws.RoundTrip.setTxStartCode p, _, rfl, rfl, s.buf.get_set_same 0 p, fun _ => s.buf.get_set_other p,
    latches_set s.buf 0 p⟩

/-- Settles O10: the write is to entry `idx + 1`, and what an entry holds is what its slot latches. -/
theorem setChannelLowWritesItsEntry : Obligations.SetChannelLowWritesItsEntry := by
  intro idx val s
  obtain ⟨t, he, hframe, hget, hother⟩ :=
    execute_writeBuf (op := .setDmxChannelValueLow) (by decide) (lowIndex idx) val s
  exact ⟨Laws.RoundTrip.setDmxChannelValueLow idx val, lowIndex_eq idx, t, he, hframe, hget, hother, latches_of_get hget⟩

/-- Settles O11: the write is to entry `idx + 257`, and what an entry holds is what its slot latches. -/
theorem setChannelHighWritesItsEntry : Obligations.SetChannelHighWritesItsEntry := by
  intro idx val s
  obtain ⟨t, he, hframe, hget, hother⟩ :=
    execute_writeBuf (op := .setDmxChannelValueHigh) (by decide) (highIndex idx) val s
  exact ⟨Laws.RoundTrip.setDmxChannelValueHigh idx val, highIndex_eq idx, Nat.le_of_lt_succ (highIndex_lt idx), t, he,
    hframe, hget, hother, latches_of_get hget⟩

end Sys2Proof.Machine
end

/-! ### The guard and the commands that only answer (O9, O12, O13) -/

section
namespace Sys2Proof.Machine

/-- A command but RESET answers, whatever the state. -/
theorem exists_exec_next {i : Instr} (hi : i.isCommand = true) (hne : i ≠ .reset) (s : State) : ∃ t, exec i s = .next t := by
  rcases exec_command hi s with ⟨hr, -⟩ | ⟨u, op, r, -, he⟩
  · exact absurd hr hne
  · exact ⟨_, he⟩

/-- Settles O9: a discarded byte changes nothing, and what a command leaves in `LASTNOP` says whether it is NO_OPERATION. -/
theorem noOperationSetsTheGuard : Obligations.NoOperationSetsTheGuard := by
  refine fun s => ⟨Laws.RoundTrip.noOperation, _, rfl, rfl, fun b hb => hStep_unlisted rfl hb, fun i hi hno hne => ?_⟩
  obtain ⟨u, hu⟩ := exists_exec_next hi hne (s.complete .noOperation [0xA6])
  refine ⟨u, hu, ?_⟩
  rcases exec_lastnop hi hu with ⟨hr, -⟩ | ⟨-, hn⟩
  · exact absurd hr hne
  · exact hn.trans (decide_eq_false hno)

/-- Settles O12: the command has no effect but its response. -/
theorem versionRequestAnswersTheVersion : Obligations.VersionRequestAnswersTheVersion :=
  fun _ => ⟨Laws.RoundTrip.versionRequest, rfl⟩

/-- Settles O13: with the guard not met RESET has no effect but its response. -/
theorem unguardedResetFails : Obligations.UnguardedResetFails :=
  fun _ h => ⟨Laws.RoundTrip.reset, exec_reset_unguarded h⟩

end Sys2Proof.Machine
end

/-! ### The commands that write a shared register (O15-O20) -/

section
namespace Sys2Proof.Machine

/-- A tick that computes a data-bit level computes that of the bit it leaves in `BITPOS`, of the byte it leaves in `SHIFT`
(R124, R126). -/
theorem ComputesLevel.pend {u : State} (h : ComputesLevel u) :
    u.afterTick.pend = level u.afterTick.shift u.afterTick.bitpos u.blackout := by
  rcases h with hp | ⟨hp, hb⟩
  · rw [State.afterTick_of_startBit hp]
  · rw [State.afterTick_of_dataBit hp hb]

/-- Settles O15: the mask of blackout lets nothing through. -/
theorem turnOnBlackoutClearsTheMask : Obligations.TurnOnBlackoutClearsTheMask := by
  refine fun s => ⟨Laws.RoundTrip.turnOnBlackout, _, rfl, rfl, rfl, fun u hl hc hb => ⟨_, gStep_of_legal hl, ?_⟩⟩
  rw [hc.pend, hb]
  exact level_blackoutOn _ _

/-- Settles O16: the mask of normal operation lets the bit itself through. -/
theorem turnOffBlackoutSetsTheMask : Obligations.TurnOffBlackoutSetsTheMask := by
  refine fun s => ⟨Laws.RoundTrip.turnOffBlackout, _, rfl, rfl, rfl, fun u hl hc hb => ⟨_, gStep_of_legal hl, ?_⟩⟩
  rw [hc.pend, hb]
  exact level_blackoutOff _ _

/-- A command without a response leaves `RESP` as it is, and clears the guard unless it is NO_OPERATION (R171). -/
theorem State.complete_silent {op : Opcode} (hop : op ≠ .noOperation) (s : State) :
    s.complete op [] = { s with lastnop := false } := by
  simp [State.complete, lastnopAfter, hop]

theorem exec_turnTxOn (s : State) : exec .turnTxOn s = .next { s with txen := true, lastnop := false } :=
  congrArg Host.Outcome.next (State.complete_silent (op := .turnTxOn) (by decide) _)

theorem exec_turnTxOff (s : State) : exec .turnTxOff s = .next { s with txen := false, lastnop := false } :=
  congrArg Host.Outcome.next (State.complete_silent (op := .turnTxOff) (by decide) _)

/-- Settles O17: TURN_TX_ON overwrites the `TXEN` of a TURN_TX_OFF, and the Idle step reads it. -/
theorem turnTxOnWritesTxenOnly : Obligations.TurnTxOnWritesTxenOnly := by
  refine fun s => ⟨Laws.RoundTrip.turnTxOn, _, exec_turnTxOn s, rfl, fun r hr => ?_,
    fun u hl hp htx => ⟨_, gStep_of_legal hl, ?_⟩⟩
  · cases (exec_turnTxOff s).symm.trans hr
    exact exec_turnTxOn _
  · rw [State.afterTick_of_idle hp]
    exact if_pos htx

/-- Settles O18: the StopBits step reads `TXEN`, and shows the high level that R47 has it find. -/
theorem turnTxOffWritesTxenOnly : Obligations.TurnTxOffWritesTxenOnly := by
  refine fun s => ⟨Laws.RoundTrip.turnTxOff, _, exec_turnTxOff s, rfl,
    fun u h hp htx => ⟨_, gStep_of_legal h.legal, ?_, ?_⟩⟩
  · rw [State.afterTick_of_stopBits hp]
    exact if_neg (by simp [htx])
  · rw [State.afterTick_of_stopBits hp]
    exact h.pendHigh (.inr (.inl hp))

/-- Whatever `LAST` holds, the frame restart samples it and no other tick does (R130, R156). -/
theorem sampledAtRestart (n : Word10) : SampledAtRestart n := by
  intro u hl hlast
  refine ⟨_, gStep_of_legal hl, ?_⟩
  split
  · next hrestart =>
    obtain ⟨hp, hz⟩ := hrestart
    rw [State.afterTick_of_stopBits hp, ← hlast]
    exact ⟨if_pos hz, if_pos hz⟩
  · next hno =>
    rcases u.afterTick_cursor with ⟨-, hf⟩ | ⟨hp, hz, -⟩ | ⟨-, -, -, hf⟩
    · exact hf
    · exact absurd ⟨hp, hz⟩ hno
    · exact hf

/-- Settles O19: `LAST` is read by the frame restart alone. -/
theorem setLastLowWritesLast : Obligations.SetLastLowWritesLast :=
  fun p _ => ⟨Laws.RoundTrip.setLastTxCodeLow p, _, rfl, rfl, lowLast_toNat p, sampledAtRestart _⟩

/-- Settles O20: `LAST` is read by the frame restart alone. -/
theorem setLastHighWritesLast : Obligations.SetLastHighWritesLast :=
  ⟨rfl, fun p _ => ⟨Laws.RoundTrip.setLastTxCodeHigh p, _, rfl, rfl, highLast_toNat p, sampledAtRestart _⟩⟩

end Sys2Proof.Machine
end

/-! ### The step that takes a byte of a command (O32, O33) -/

section
namespace Sys2Proof

theorem Opcode.code_injective : Function.Injective Opcode.code := fun op op' h => by
  simpa using congrArg Opcode.ofByte h

/-- A command is encoded with all the parameters of its opcode (R91). -/
theorem length_of_encodeCommand {i : Instr} {op : Opcode} {ps : List Byte} (hi : i.isCommand = true)
    (h : encodeCommand i = op.code :: ps) : ps.length = op.arity := by
  obtain ⟨op', ps', ha, he⟩ := exists_assemble hi
  obtain ⟨hop, rfl⟩ := List.cons_eq_cons.mp (he.symm.trans h)
  rw [← Opcode.code_injective hop]
  exact (assemble_isSome_iff op' ps').mp (by rw [ha]; rfl)

/-- Commands with the same encoding are the same (R94). -/
theorem encodeCommand_injective {i j : Instr} (hi : i.isCommand = true) (hj : j.isCommand = true)
    (h : encodeCommand i = encodeCommand j) : i = j := by
  have hd := decodeBytes_encodeCommand hi []
  rw [h, decodeBytes_encodeCommand hj] at hd
  cases hd
  rfl

/-- The byte that makes the bytes taken in a command's encoding completes that command (R170). -/
theorem Dec.feed_of_encodeCommand {d : Dec} {b : Byte} {i : Instr} (hi : i.isCommand = true)
    (h : d.bytes ++ [b] = encodeCommand i) : d.feed b = (.awaitOpcode, some (.command i)) := by
  obtain ⟨op, ps, -, he⟩ := exists_assemble hi
  rcases Dec.feed_cases d b with ⟨j, hf, hj, hb⟩ | ⟨rfl, ho, -⟩ | ⟨op', ps', -, hb, hlen, -⟩
  · rw [hf, encodeCommand_injective hj hi (hb.trans h)]
  · obtain ⟨rfl, -⟩ := List.cons_eq_cons.mp (h.trans he)
    simp at ho
  · exact absurd (length_of_encodeCommand hi (h.symm.trans hb.symm)) hlen

/-- A byte that leaves parameters missing is kept with those before it (R170). -/
theorem Dec.feed_of_incomplete {d : Dec} {b : Byte} {op : Opcode} {ps : List Byte} (hlen : ps.length < op.arity)
    (h : d.bytes ++ [b] = op.code :: ps) : d.feed b = (.awaitParams op ps, none) := by
  rcases Dec.feed_cases d b with ⟨j, -, hj, hb⟩ | ⟨rfl, ho, -⟩ | ⟨op', ps', hf, hb, -⟩
  · exact absurd (length_of_encodeCommand hj (hb.trans h)) (Nat.ne_of_lt hlen)
  · obtain ⟨rfl, -⟩ := List.cons_eq_cons.mp h
    simp at ho
  · obtain ⟨hop, rfl⟩ := List.cons_eq_cons.mp (hb.trans h)
    rw [hf, Opcode.code_injective hop]

end Sys2Proof

namespace Sys2Proof.Machine

/-- Settles O32: the step is a decode step, in which the byte completes the command. -/
theorem stepExecutesTheCompletedCommand : Obligations.StepExecutesTheCompletedCommand := by
  intro s b bs i hb hi h
  have hf : (s.past bs).dec.feed b = (.awaitOpcode, some (.command i)) := Dec.feed_of_encodeCommand hi h
  rw [step_of_servesByte hb]
  simp only [hStep, hf]

/-- Settles O33: the step is a decode step, after which the decoder waits. -/
theorem incompleteCommandHoldsOnlyTheDecoder : Obligations.IncompleteCommandHoldsOnlyTheDecoder := by
  intro s b bs op ps hb hlen h
  have hf : (s.past bs).dec.feed b = (.awaitParams op ps, none) := Dec.feed_of_incomplete hlen h
  rw [step_of_servesByte hb]
  simp only [hStep, hf]

end Sys2Proof.Machine
end

/-! ## PROOFS for the family 70_reset_and_hazards.md -/

/-! ### Resynchronisation of the decoder (O6) -/

section
namespace Sys2Proof
open Machine

/-- The number of parameter bytes the decoder still expects. -/
def Dec.missing : Dec → Nat
  | .awaitOpcode => 0
  | .awaitParams op ps => op.arity - ps.length

/-- No format has more than two parameters (R91). -/
theorem Dec.missing_le_two (d : Dec) : d.missing ≤ 2 := by
  cases d with
  | awaitOpcode => exact Nat.zero_le 2
  | awaitParams op ps =>
    have hop : op.arity ≤ 2 := by cases op <;> decide
    exact (Nat.sub_le _ _).trans hop

/-- A decoder state of R33 that expects no parameter is AwaitOpcode. -/
theorem Dec.eq_awaitOpcode_of_missing {d : Dec} (hd : d.wellFormed = true) (h : d.missing = 0) : d = .awaitOpcode := by
  cases d with
  | awaitOpcode => rfl
  | awaitParams op ps =>
    have hlt : ps.length < op.arity := of_decide_eq_true hd
    exact absurd h (Nat.sub_ne_zero_of_lt hlt)

/-- A byte that is no opcode fills one missing parameter (R98), or is discarded (R96). -/
theorem Dec.missing_feed_unlisted {d : Dec} {b : Byte} (hd : d.wellFormed = true) (h : b ∉ opcodeBytes) :
    (d.feed b).1.missing = d.missing - 1 := by
  cases d with
  | awaitOpcode => rw [Dec.feed_unlisted h]; rfl
  | awaitParams op ps =>
    have hf := parameterBytesAreNeverOpcodes.2 op ps b (of_decide_eq_true hd)
    split at hf
    · next hlast =>
      obtain ⟨i, hi, -⟩ := hf
      simp only [hi, Dec.missing]
      omega
    · simp only [hf, Dec.missing, List.length_append, List.length_singleton]
      omega

theorem missing_decodeStream_unlisted {d : Dec} {bs : List Byte} (hd : d.wellFormed = true)
    (h : ∀ b ∈ bs, b ∉ opcodeBytes) : (decodeStream d bs).2.missing = d.missing - bs.length := by
  induction bs generalizing d with
  | nil => rfl
  | cons b bs ih =>
    obtain ⟨hb, hbs⟩ := List.forall_mem_cons.mp h
    rw [decodeStream_cons, ih (Dec.feed_wellFormed b hd) hbs, Dec.missing_feed_unlisted hd hb, List.length_cons]
    omega

/-- Settles O6: at most two parameters are missing, and each of the two bytes takes one away. -/
theorem twoNonOpcodesResynchronise : Obligations.TwoNonOpcodesResynchronise := by
  intro d b c hd hb hc
  apply Dec.eq_awaitOpcode_of_missing (decodeStream_wellFormed hd _)
  rw [missing_decodeStream_unlisted hd (by simp [hb, hc])]
  exact Nat.sub_eq_zero_of_le d.missing_le_two

end Sys2Proof
end

/-! ### Power-on reset (O35, O36) -/

section
namespace Sys2Proof.Machine

theorem State.reset_atReset : AtReset Params.default State.reset where
  buf := Memory.get_nil
  blackout := rfl
  last := rfl
  txen := rfl
  phase := rfl
  remain := rfl
  flast := rfl
  pend := rfl
  pin := rfl
  dec := rfl
  lastnop := rfl
  resp := rfl

/-- Settles O36, clause by clause at the values of R250. -/
theorem resetStateHoldsTheGivenValues : Obligations.ResetStateHoldsTheGivenValues := ⟨State.reset_atReset, rfl, rfl⟩

/-- A power-on reset takes the values of `State.reset` but for the open registers (R255), and `TXEN` from the parameters (R250). -/
theorem State.powerOn_atReset (s : State) : AtReset s.params s.powerOn :=
  { State.reset_atReset with txen := rfl }

/-- A power-on reset comes before anything else (R256). -/
theorem step_of_powerOn {s : State} (hl : s.legal = true) (hr : s.moment.rst = true) : step s = .next s.arrived.powerOn := by
  rw [step_of_legal hl, s.event_eq_powerOn_iff.mpr hr]
  rfl

/-- Settles O35: the step is the power-on reset, whose values are those of R250. -/
theorem powerOnResetIsOneEvent : Obligations.PowerOnResetIsOneEvent :=
  fun s hl hr => ⟨s.arrived.powerOn, step_of_powerOn hl hr, s.arrived.powerOn_atReset, rfl, rfl⟩

end Sys2Proof.Machine
end

/-! ### The timing budget (O60) -/

section
namespace Sys2Proof.Machine

/-- Under the literal reading the Break is 20/249 of a bit (C2), so a Break of 92 us makes a bit of 1145.4 us. -/
theorem Conformant.tol_of_literal {tCount tol : Rat} (h : Conformant Params.default (fun v => v.toNat) tCount tol) :
    1141 < tol := by
  have hbrk : 92 ≤ 20 * tCount := h.brk
  have hbit : 249 * tCount ≤ 4 + tol := h.bit.2
  linarith

/-- The reading under which the numbers fit (C2): an 8-bit up-counter, loaded with the reload value, runs to its overflow. -/
def upCounterInterval (v : Byte) : Nat := 256 - v.toNat

/-- The counts of C2: Break 236, MarkAfterBreak 36, a bit 7, the stop bits 17. -/
theorem upCounterInterval_default :
    upCounterInterval Params.default.durBreak = 236 ∧ upCounterInterval Params.default.durMab = 36 ∧
      upCounterInterval Params.default.durBit = 7 ∧ upCounterInterval Params.default.durStop = 17 := by decide

/-- At half a microsecond per count: Break 118 us, MarkAfterBreak 18 us, a bit 3.5 us, the stop bits 8.5 us. -/
theorem conformant_upCounterInterval : Conformant Params.default upCounterInterval (1 / 2) (1 / 2) := by
  obtain ⟨hbrk, hmab, hbit, hstop⟩ := upCounterInterval_default
  constructor
  · norm_num [hbrk]
  · norm_num [hmab]
  · norm_num [hbit]
  · norm_num [hstop]

/-- Settles O60: no tolerance below 1141 us is enough for the literal reading, and an up-counter meets the budget. -/
theorem literalIntervalsMissTheBudget : Obligations.LiteralIntervalsMissTheBudget :=
  ⟨fun _ _ htol h => absurd h.tol_of_literal htol.not_gt, upCounterInterval, 1 / 2, conformant_upCounterInterval⟩

end Sys2Proof.Machine
end
